-- ==== Sys2Proof/Word.lean ====
section
/-! DEFINITION. The machine's word and byte (spec/00_scope.md R7, R8). -/

namespace Sys2Proof

/-- `u64`: a register's contents, and an address value (`10_state.md` R22, R24). -/
abbrev Word := BitVec 64

/-- `u8`: a byte of memory, an opcode (`00_scope.md` R8). -/
abbrev Byte := BitVec 8

end Sys2Proof
end

