-- ==== Sys2Proof/Syntax.lean ====
section
/-! DEFINITION. The instructions of FDE-min (spec/30_encoding.md R81, R83): one constructor per opcode table row. -/

namespace Sys2Proof

/-- A decoded instruction (`30_encoding.md` R83). -/
inductive Instr where
  /-- `NOP`, byte `0x90` (`41_nop_and_unknown.md` R130). -/
  | nop
  /-- `JMP rel8`, bytes `0xEB disp8` (`42_control_transfer.md` R140). `none` is the opcode with no byte of memory
  after it: not an encoding error, its operand fetch raises `OutOfBounds` (`30_encoding.md` R86).
  DEDUCED, safe: notes/assumptions/5.md. -/
  | jmp (disp8 : Option Byte)
  /-- `UNKNOWN`: any opcode byte but `0x90` and `0xEB` (`41_nop_and_unknown.md` R131). -/
  | unknown (opcode : Byte)
deriving DecidableEq, Repr

/-- The opcode byte of NOP (`30_encoding.md` R83). -/
def Opcode.nop : Byte := 0x90

/-- The opcode byte of JMP rel8 (`30_encoding.md` R83). -/
def Opcode.jmp : Byte := 0xEB

end Sys2Proof
end

