-- ==== Sys2Proof/WellFormed.lean ====
section
/-! DEFINITION. Which terms of `Instr` are whole encodings of FDE-min (spec/30_encoding.md R81, R83). -/

namespace Sys2Proof

/-- Why a term of `Instr` is no whole instruction. -/
inductive WfError where
  /-- A JMP without its displacement byte: format F2 is two bytes (R81). -/
  | missingDisplacement
  /-- An UNKNOWN whose byte is a recognised opcode: `0x90` or `0xEB` (R83). -/
  | recognisedOpcode (opcode : Byte)
deriving DecidableEq, Repr

/-- The check, answering the reason by name. -/
def Instr.check : Instr → Except WfError Unit
  | .nop => .ok ()
  | .jmp (some _) => .ok ()
  | .jmp none => .error .missingDisplacement
  | .unknown op => if op = Opcode.nop ∨ op = Opcode.jmp then .error (.recognisedOpcode op) else .ok ()

/-- The well-formed instructions: exactly the encodings of R83's map. -/
def Instr.wf (i : Instr) : Bool :=
  match i.check with
  | .ok _ => true
  | .error _ => false

end Sys2Proof
end

