-- ==== Sys2Proof/Decode.lean ====
section
/-! DEFINITION. The decoder, the encoder, and a jump's assembly (spec/30_encoding.md R80 to R88). -/

namespace Sys2Proof

/-- The total dispatch table (`30_encoding.md` R83) with F2's operand field: `next` is the byte at opcode address `+1`,
`none` where no such byte exists (R86). The operand is read by JMP alone (R82, R107). -/
def decodeOpcode (op : Byte) (next : Option Byte) : Instr :=
  if op = Opcode.nop then .nop
  else if op = Opcode.jmp then .jmp next
  else .unknown op

/-- Why bytes are no instruction: the only case is that there is no byte, since no encoding is illegal (R85). -/
inductive DecodeError where
  | noOpcodeByte
deriving DecidableEq, Repr

/-- Read one instruction from bytes in increasing address order, and give the bytes after it (R80, R82). -/
def decode : List Byte → Except DecodeError (Instr × List Byte)
  | [] => .error .noOpcodeByte
  | op :: rest =>
    match decodeOpcode op rest.head? with
    | .jmp d => .ok (.jmp d, rest.tail)
    | .nop => .ok (.nop, rest)
    | .unknown b => .ok (.unknown b, rest)

/-- The first `n` instructions of a byte stream, each beginning where the one before it ended (R107). -/
def decodeStream : Nat → List Byte → List Instr
  | 0, _ => []
  | n + 1, bytes =>
    match decode bytes with
    | .ok (i, rest) => i :: decodeStream n rest
    | .error _ => []

/-- The bytes of an instruction in increasing address order (R81, R83). -/
def encode : Instr → List Byte
  | .nop => [Opcode.nop]
  | .jmp (some d) => [Opcode.jmp, d]
  | .jmp none => [Opcode.jmp]
  | .unknown op => [op]

/-- The opcode byte consumed (`10_state.md` R33). -/
def Instr.opcode : Instr → Byte
  | .nop => Opcode.nop
  | .jmp _ => Opcode.jmp
  | .unknown op => op

/-- The length in bytes that the opcode alone decides (`30_encoding.md` R82). -/
def insnLength (op : Byte) : Nat := if op = Opcode.jmp then 2 else 1

/-- The displacement of a jump at `here` to `target`, and whether it fits (`30_encoding.md` R88). -/
def jumpDisplacement (here target : Word) : Option Byte :=
  let disp : Int := (target.toNat : Int) - ((here.toNat : Int) + 2)
  if -128 ≤ disp ∧ disp ≤ 127 then some (BitVec.ofInt 8 disp) else none

/-- The bytes that an opcode-table word stands for, up to the longest instruction: bit 0 of `w` is the least significant
bit of the first byte, and bits at or above `nbits` are 0. -/
def tableBytes (nbits w : Nat) : List Byte :=
  let v := w % 2 ^ nbits
  [BitVec.ofNat 8 v, BitVec.ofNat 8 (v / 256)]

/-- The instruction the decoder reads from an opcode-table word. -/
def decodeTableWord (nbits w : Nat) : Option Instr :=
  match decode (tableBytes nbits w) with
  | .ok (i, _) => some i
  | .error _ => none

end Sys2Proof
end

