-- ==== Sys2Proof/Config.lean ====
section
/-! DEFINITION. What the spec leaves to the implementation or to the construction argument. -/

namespace Sys2Proof

/-- The implementation's word behind `MAX_CAPACITY`; nothing says which it is (`92_eei_decisions.md` D14, `OPEN`).
DESIGN CHOICE, safe: notes/assumptions/4.md. -/
opaque Config.ceiling : Word

/-- `MAX_CAPACITY` (`00_scope.md` R7): some number with `1 <= MAX_CAPACITY <= 2^64 - 1`. -/
def Config.maxCapacity : Nat := max 1 Config.ceiling.toNat

/-- The construction argument behind `State.reset`: the capacity of the source's scenarios (`00_scope.md` R7).
DESIGN CHOICE, unsafe: notes/assumptions/2.md. -/
def Config.resetCapacity : Nat := 8192

/-- What `budget` holds before a run latches it (`10_state.md` R32, R35: not observable).
DESIGN CHOICE, unsafe: notes/assumptions/3.md. -/
def Config.resetBudget : Word := 0

end Sys2Proof
end

