-- ==== Sys2Proof/Machine/State.lean ====
section
/-! DEFINITION. The machine's state (spec/10_state.md), its reset, and the reasons a step can stop. -/

namespace Sys2Proof.Machine

/-- Sparse memory: address and byte, one canonical form (`Memory.wf`); an unlisted byte of `[0, CAPACITY)` is 0, the
value of every byte after construction (`10_state.md` R34, R35). -/
abbrev Memory := List Host.Cell

/-- The names of the eight general-purpose registers (`10_state.md` R21). -/
inductive GprName where
  | a | b | c | d | si | di | bp | sp
deriving DecidableEq, Repr

/-- The general-purpose registers, in the source's order (`10_state.md` R21). -/
structure GprFile where
  a : Word
  b : Word
  c : Word
  d : Word
  si : Word
  di : Word
  bp : Word
  sp : Word
deriving DecidableEq, Repr

/-- The control state (`10_state.md` R29). -/
inductive Control where
  | idle | running | halted | faulted
deriving DecidableEq, Repr

/-- Why a run ended normally (`10_state.md` R29); `explicitHalt` is reserved and never produced (`60_exceptions.md` R157). -/
inductive HaltReason where
  | endOfMemory | budget | explicitHalt
deriving DecidableEq, Repr

/-- `OutOfBounds(addr, n)`: the access that failed the bound rule (`20_memory.md` R54 to R57). -/
structure OutOfBounds where
  addr : Word
  len : Nat
deriving DecidableEq, Repr

/-- The four fields a fault records (`10_state.md` R29, `60_exceptions.md` R152). -/
structure FaultRecord where
  accessAddr : Word
  accessLen : Nat
  insnAddr : Word
  ipAtFault : Word
deriving DecidableEq, Repr

/-- The stop record (`10_state.md` R29). -/
inductive StopRecord where
  | none
  | halted (reason : HaltReason)
  | faulted (record : FaultRecord)
deriving DecidableEq, Repr

/-- Whether a trace entry's byte has a handler of its own (`10_state.md` R30). -/
inductive TraceKind where
  | recognized | unknown
deriving DecidableEq, Repr

/-- One entry of the trace (`10_state.md` R30). -/
structure TraceEntry where
  address : Word
  opcode : Byte
  kind : TraceKind
deriving DecidableEq, Repr

/-- Everything the spec gives the Engine and its Memory (`10_state.md` R20 to R35). -/
structure State where
  /-- `CAPACITY`, fixed at construction (R34). -/
  capacity : Nat
  /-- `mem[0 .. CAPACITY-1]` (R34). -/
  mem : Memory
  /-- `IP` (R24). -/
  ip : Word
  /-- `GPR[0..7]` (R21). -/
  gpr : GprFile
  /-- `FLAGS`, all bits reserved (R28). -/
  flags : Word
  /-- `state` (R29). -/
  control : Control
  /-- `stop` (R29). -/
  stop : StopRecord
  /-- The trace, oldest entry first (R30). -/
  trace : List TraceEntry
  /-- The number of handlers completed in this run (R31). -/
  count : Word
  /-- The run's instruction budget (R32). -/
  budget : Word
deriving DecidableEq, Repr

/-- The reasons for `Host.Outcome.fault`. There is none: the one fault the spec describes, `OutOfBounds` in a run, is a
next state whose `control` is `faulted` (`60_exceptions.md` R152). Nobody raises one. DEDUCED, safe:
notes/assumptions/7.md. -/
inductive Fault
deriving DecidableEq, Repr

/-- The reasons for `Host.Outcome.refused`. -/
inductive Refusal where
  /-- An instruction without a meaning, raised by `exec`'s arm for it; no arm raises it now. Safe. -/
  | notModelled (mnemonic : String)
  /-- A host command sent in a state that does not accept it (`40_engine_cycle.md` R116, R117), raised by `hostStep`
  and by no step of the Engine. DESIGN CHOICE, safe: notes/assumptions/9.md. -/
  | commandNotAccepted
deriving DecidableEq, Repr

/-- The Engine right after a successful `construct(capacity)` (`10_state.md` R35, `70_reset_and_hazards.md` R180). -/
def State.constructed (capacity : Nat) : State where
  capacity := capacity
  mem := []
  ip := 0
  gpr := { a := 0, b := 0, c := 0, d := 0, si := 0, di := 0, bp := 0, sp := 0 }
  flags := 0
  control := .idle
  stop := .none
  trace := []
  count := 0
  budget := Config.resetBudget

/-- The machine right after reset: construction is the only reset (`70_reset_and_hazards.md` R180, R181). -/
def State.reset : State := State.constructed Config.resetCapacity

end Sys2Proof.Machine
end

