-- ==== Sys2Proof/Machine/Ops.lean ====
section
/-! DEFINITION. The named operations over memory, registers and the Engine's control state, the taking of a fault, and
what every handler's iteration shares (spec/20_memory.md, 40_engine_cycle.md, 60_exceptions.md). -/

namespace Sys2Proof.Machine

/-! ## Memory -/

/-- The byte at an address; an unlisted byte is 0 (`10_state.md` R34). The bound is the caller's. -/
def Memory.read : Memory → Nat → Byte
  | [], _ => 0
  | (k, v) :: m, a => if k = a then v else Memory.read m a

/-- Write one byte, keeping the canonical form: a 0 is not listed. The bound is the caller's. -/
def Memory.write : Memory → Nat → Byte → Memory
  | [], a, v => if v = 0 then [] else [(a, v)]
  | (k, w) :: m, a, v =>
    if a < k then (if v = 0 then (k, w) :: m else (a, v) :: (k, w) :: m)
    else if a = k then (if v = 0 then m else (a, v) :: m)
    else (k, w) :: Memory.write m a v

/-- Write consecutive bytes in increasing address order (`20_memory.md` R54's loop). -/
def Memory.writeAll : Memory → Nat → List Byte → Memory
  | m, _, [] => m
  | m, a, b :: bs => Memory.writeAll (Memory.write m a b) (a + 1) bs

/-- The canonical form: addresses strictly rising, no byte listed that an unlisted address reads as. -/
abbrev Memory.wf (m : Memory) : Prop :=
  m.Pairwise (fun x y => x.1 < y.1) ∧ ∀ c ∈ m, c.2 ≠ 0

/-- `InBounds(addr, n)`, computed in `Nat` (`20_memory.md` R52, R53). -/
def State.inBounds (s : State) (addr : Word) (n : Nat) : Bool := decide (addr.toNat + n ≤ s.capacity)

/-- `read_bytes(addr, n)`, that is `MemRead(addr, n)` (`20_memory.md` R55). -/
def State.memRead (s : State) (addr : Word) (n : Nat) : Except OutOfBounds (List Byte) :=
  if s.inBounds addr n then .ok ((List.range n).map fun k => s.mem.read (addr.toNat + k))
  else .error ⟨addr, n⟩

/-- `read_byte(addr)` (`20_memory.md` R56). -/
def State.memReadByte (s : State) (addr : Word) : Except OutOfBounds Byte :=
  if s.inBounds addr 1 then .ok (s.mem.read addr.toNat) else .error ⟨addr, 1⟩

/-- `MemWrite(addr, n, v)`, all or nothing (`20_memory.md` R54, R57). -/
def State.memWrite (s : State) (addr : Word) (v : List Byte) : Except OutOfBounds State :=
  if s.inBounds addr v.length then .ok { s with mem := s.mem.writeAll addr.toNat v }
  else .error ⟨addr, v.length⟩

/-- `write_byte(addr, v)` (`20_memory.md` R57). -/
def State.memWriteByte (s : State) (addr : Word) (v : Byte) : Except OutOfBounds State :=
  if s.inBounds addr 1 then .ok { s with mem := s.mem.write addr.toNat v } else .error ⟨addr, 1⟩

/-- The value of bytes in the declared order, the first byte lowest (`20_memory.md` R62). -/
def littleEndian : List Byte → Nat
  | [] => 0
  | b :: bs => b.toNat + 256 * littleEndian bs

/-! ## Registers -/

/-- The register of an index, 0 to 7 (`10_state.md` R21). -/
def GprName.ofIndex (i : Fin 8) : GprName :=
  match i with
  | 0 => .a | 1 => .b | 2 => .c | 3 => .d | 4 => .si | 5 => .di | 6 => .bp | 7 => .sp

/-- The contents of one register. -/
def GprFile.get (g : GprFile) (r : GprName) : Word :=
  match r with
  | .a => g.a | .b => g.b | .c => g.c | .d => g.d | .si => g.si | .di => g.di | .bp => g.bp | .sp => g.sp

/-- Replace the contents of one register; none aliases another (`10_state.md` R22). -/
def GprFile.set (g : GprFile) (r : GprName) (v : Word) : GprFile :=
  match r with
  | .a => { g with a := v }
  | .b => { g with b := v }
  | .c => { g with c := v }
  | .d => { g with d := v }
  | .si => { g with si := v }
  | .di => { g with di := v }
  | .bp => { g with bp := v }
  | .sp => { g with sp := v }

/-- `GPR[i]` (`00_scope.md` R10). -/
def State.readGpr (s : State) (i : Fin 8) : Word := s.gpr.get (GprName.ofIndex i)

/-- `GPR[i] <- v` (`00_scope.md` R10). -/
def State.writeGpr (s : State) (i : Fin 8) (v : Word) : State := { s with gpr := s.gpr.set (GprName.ofIndex i) v }

/-- `IP <- v` (`00_scope.md` R10); any value is legal (`10_state.md` R27). -/
def State.setIp (s : State) (v : Word) : State := { s with ip := v }

/-- `IP <- IP +64 1` (`40_engine_cycle.md` R102, R107). -/
def State.advanceIp (s : State) : State := s.setIp (s.ip + 1)

/-! ## Trace, count and control -/

/-- `trace_append(e)` (`10_state.md` R30). -/
def State.traceAppend (s : State) (e : TraceEntry) : State := { s with trace := s.trace ++ [e] }

/-- `count <- count + 1` (`10_state.md` R31). -/
def State.countUp (s : State) : State := { s with count := s.count + 1 }

/-- `stop Halted(reason)` (`40_engine_cycle.md` R103). -/
def State.halt (s : State) (reason : HaltReason) : State := { s with control := .halted, stop := .halted reason }

/-- Take the fault `OutOfBounds` raised inside the handler of the instruction at `insnAddr`
(`60_exceptions.md` R152, R160): the stop record is written, nothing is rolled back. -/
def State.takeOutOfBounds (s : State) (e : OutOfBounds) (insnAddr : Word) : State :=
  { s with
    control := .faulted
    stop := .faulted { accessAddr := e.addr, accessLen := e.len, insnAddr := insnAddr, ipAtFault := s.ip } }

/-- Run entry (`40_engine_cycle.md` R101). It is also the only way on after a fault or a halt: there is no return
from a trap (`60_exceptions.md` R161). -/
def State.enterRun (s : State) (startAddress maxInstructions : Word) : State :=
  { s with
    control := .running
    stop := .none
    ip := startAddress
    budget := maxInstructions
    count := 0
    trace := [] }

/-! ## Handlers -/

/-- How a handler ends (`40_engine_cycle.md` R106): complete, or by raising `OutOfBounds` in the state it had reached. -/
inductive HandlerResult where
  | completed (s : State)
  | raised (access : OutOfBounds) (s : State)
deriving DecidableEq, Repr

/-- What the handler's end does to the Engine (`40_engine_cycle.md` R102, R109): a completed handler is counted, a
raised access takes the fault. -/
def HandlerResult.finish (r : HandlerResult) (insnAddr : Word) : State :=
  match r with
  | .completed s => s.countUp
  | .raised e s => s.takeOutOfBounds e insnAddr

/-- One iteration from the fetch advance on (`40_engine_cycle.md` R102): advance `IP` past the opcode, record the
trace entry, apply the handler to the opcode's address, finish. -/
def State.runHandler (s : State) (op : Byte) (kind : TraceKind) (apply : Word → State → HandlerResult) : State :=
  (apply s.ip (s.advanceIp.traceAppend ⟨s.ip, op, kind⟩)).finish s.ip

end Sys2Proof.Machine
end

