-- ==== Sys2Proof/Machine/Operands.lean ====
section
/-! DEFINITION. Operand bytes: their values and how a handler consumes them (spec/00_scope.md R9, 30_encoding.md R84,
40_engine_cycle.md R107). -/

namespace Sys2Proof.Machine

/-- `sint8(b)` (`00_scope.md` R9). -/
def sint8 (b : Byte) : Int := if b.toNat < 0x80 then (b.toNat : Int) else (b.toNat : Int) - 256

/-- `sext_64(b)`: the 64-bit pattern of `sint8(b)` (`00_scope.md` R9). -/
def sext64 (b : Byte) : Word := b.signExtend 64

/-- `zext_64(b)` (`00_scope.md` R9). -/
def zext64 (b : Byte) : Word := b.setWidth 64

/-- Consume the operand byte at `IP`: `MemRead(IP, 1)`, then `IP <- IP +64 1` (`40_engine_cycle.md` R107). `fetched` is
the byte the decoder took from that address, `none` where memory has no such byte; a failed read leaves `IP` alone. -/
def State.takeOperand (s : State) (fetched : Option Byte) : Except OutOfBounds (Byte × State) :=
  match fetched with
  | some d => if s.inBounds s.ip 1 then .ok (d, s.advanceIp) else .error ⟨s.ip, 1⟩
  | none => .error ⟨s.ip, 1⟩

end Sys2Proof.Machine
end

