-- ==== Sys2Proof/Machine/ControlTransfer.lean ====
section
/-! DEFINITION. Control transfer (spec/42_control_transfer.md): JMP rel8. -/

namespace Sys2Proof.Machine

/-- `JMP.apply` (R140): consume the displacement byte, then `IP <- IP +64 sext_64(d)`; any target is written without a
fault (R141). -/
def jmpHandler (disp8 : Option Byte) (_ : Word) (s : State) : HandlerResult :=
  match s.takeOperand disp8 with
  | .ok (d, t) => .completed (t.setIp (t.ip + sext64 d))
  | .error e => .raised e s

/-- JMP rel8 (R140), with its `Recognized` entry (`40_engine_cycle.md` R105). -/
def execJmp (disp8 : Option Byte) (s : State) : Host.Outcome State Fault Refusal :=
  .next (s.runHandler Opcode.jmp .recognized (jmpHandler disp8))

end Sys2Proof.Machine
end

