-- ==== Sys2Proof/Machine/NoEffect.lean ====
section
/-! DEFINITION. The one-byte no-effect handlers (spec/41_nop_and_unknown.md). -/

namespace Sys2Proof.Machine

/-- `NOP.apply` (R130): nothing; `IP` already stands past the opcode. -/
def nopHandler (_ : Word) (s : State) : HandlerResult := .completed s

/-- `UNKNOWN.apply` (R131): nothing; the record of the byte is its trace entry. -/
def unknownHandler (_ : Word) (s : State) : HandlerResult := .completed s

/-- NOP (R130), with its `Recognized` entry (`40_engine_cycle.md` R105). -/
def execNop (s : State) : Host.Outcome State Fault Refusal :=
  .next (s.runHandler Opcode.nop .recognized nopHandler)

/-- UNKNOWN (R131, R154), with its `Unknown` entry (`40_engine_cycle.md` R105). -/
def execUnknown (op : Byte) (s : State) : Host.Outcome State Fault Refusal :=
  .next (s.runHandler op .unknown unknownHandler)

end Sys2Proof.Machine
end

