-- ==== Sys2Proof/Machine/Fetch.lean ====
section
/-! DEFINITION. What the top of an iteration decides: the budget check, the bounds check, the fetch and the decode
(spec/40_engine_cycle.md R102 to R105); and how an instruction is placed where the next step fetches it. -/

namespace Sys2Proof.Machine

/-- The budget check, `count >= budget` (R102, `60_exceptions.md` R156). -/
def State.budgetSpent (s : State) : Bool := decide (s.budget.toNat ≤ s.count.toNat)

/-- The byte that an operand fetch of the instruction at `IP` finds: the byte after the opcode, where memory holds one
(R107, `30_encoding.md` R86). -/
def State.operandAt (s : State) : Option Byte :=
  if s.inBounds (s.ip + 1) 1 then some (s.mem.read (s.ip + 1).toNat) else none

/-- The bytes of the instruction at `IP` that memory holds: the opcode and the byte after it, each only where it is in
bounds. Reads have no side effect (`20_memory.md` R61), so a byte the handler does not consume is not observed. -/
def State.insnBytes (s : State) : List Byte :=
  match s.memReadByte s.ip with
  | .error _ => []
  | .ok op => op :: s.operandAt.toList

/-- The instruction at `IP`; `none` exactly when `IP` is outside memory, the end-of-memory check (R102, R104). -/
def State.fetchInsn (s : State) : Option Instr :=
  match decode s.insnBytes with
  | .ok (i, _) => some i
  | .error .noOpcodeByte => none

/-- Where `withFetchWord` places an instruction: at `IP` if the longest one fits there, else at address 0. -/
def State.placeAddress (s : State) : Word := if s.inBounds s.ip 2 then s.ip else 0

/-- The state whose next step runs the bytes `bs`: they are stored at `placeAddress` as an image load would store them,
and a run with the largest budget is entered there unless the Engine is running there already with budget left.
DESIGN CHOICE: notes/assumptions/6.md. -/
def State.placeInsn (s : State) (bs : List Byte) : State :=
  let t : State := { s with mem := s.mem.writeAll s.placeAddress.toNat (bs.take (s.capacity - s.placeAddress.toNat)) }
  if s.control = .running ∧ s.budgetSpent = false ∧ s.placeAddress = s.ip then t
  else t.enterRun s.placeAddress (BitVec.allOnes 64)

end Sys2Proof.Machine
end

