-- ==== Sys2Proof/Machine/Step.lean ====
section
/-! DEFINITION. One step: one loop iteration while the Engine is `Running` (spec/40_engine_cycle.md R102). -/

namespace Sys2Proof.Machine

/-- One iteration: the budget check, then the bounds check, then the instruction at `IP` (R102, `60_exceptions.md` R159).
Outside `Running` no iteration exists and all state survives unchanged until the host's next command
(`60_exceptions.md` R168). DEDUCED, safe: notes/assumptions/1.md. -/
def step (s : State) : Host.Outcome State Fault Refusal :=
  match s.control with
  | .running =>
    if s.budgetSpent then .next (s.halt .budget)
    else match s.fetchInsn with
      | none => .next (s.halt .endOfMemory)
      | some i => exec i s
  | .idle => .next s
  | .halted => .next s
  | .faulted => .next s

/-- `s` with an opcode-table word placed as its next instruction (notes/assumptions/6.md). -/
def State.withFetchWord (s : State) (nbits w : Nat) : State := s.placeInsn (tableBytes nbits w)

end Sys2Proof.Machine
end

