-- ==== Sys2Proof/Machine/Assembler.lean ====
section
/-! DEFINITION. The spec's assembler notation as data (spec/30_encoding.md R87): no text is parsed.
DESIGN CHOICE, safe: notes/assumptions/11.md. -/

namespace Sys2Proof.Machine

/-- A jump's target: an address, a label, or `$`, the jump itself. -/
inductive AsmTarget where
  | address (a : Word)
  | label (name : String)
  | here
deriving DecidableEq, Repr

/-- What a line says after its label. -/
inductive AsmItem where
  /-- `nop` -/
  | nop
  /-- `jmp <target>` -/
  | jmp (target : AsmTarget)
  /-- `.byte b0, b1, ...` -/
  | byte (bs : List Byte)
  /-- `.org <addr>` -/
  | org (addr : Word)
deriving DecidableEq, Repr

/-- One line: an optional label, and one item. -/
structure AsmLine where
  label : Option String
  item : AsmItem
deriving DecidableEq, Repr

/-- The address after an item at `here`. After an item that runs past `2^64 - 1` the spec names no address; the model's
goes on from 0, modulo `2^64`. DESIGN CHOICE, safe: notes/assumptions/11.md. -/
def AsmItem.after (it : AsmItem) (here : Word) : Word :=
  match it with
  | .nop => here + 1
  | .jmp _ => here + 2
  | .byte bs => here + BitVec.ofNat 64 bs.length
  | .org addr => addr

/-- The address a label stands for: that of the item it is in front of, the first such line winning; none where
no line has it. DESIGN CHOICE, safe: notes/assumptions/11.md. -/
def labelAddress (name : String) : List AsmLine → Word → Option Word
  | [], _ => none
  | l :: ls, here =>
    if l.label = some name then some (match l.item with | .org addr => addr | _ => here)
    else labelAddress name ls (l.item.after here)

/-- The address a target stands for in a program that begins at 0. -/
def AsmTarget.resolve (t : AsmTarget) (prog : List AsmLine) (here : Word) : Option Word :=
  match t with
  | .address a => some a
  | .label name => labelAddress name prog 0
  | .here => some here

/-- The bytes of one item at `here`; none where the assembler refuses it (R87's row `jmp <target>`). An `.org` has no
encoding. A jump to a label that no line defines is refused too, of which the spec says nothing. DESIGN CHOICE, safe:
notes/assumptions/11.md. -/
def AsmItem.bytes (it : AsmItem) (prog : List AsmLine) (here : Word) : Option (List Byte) :=
  match it with
  | .nop => some (encode .nop)
  | .jmp t =>
    match t.resolve prog here with
    | none => none
    | some target =>
      match jumpDisplacement here target with
      | none => none
      | some d => some (encode (.jmp (some d)))
  | .byte bs => some bs
  | .org _ => some []

/-- The pieces of an image, each with its address, in the order of the lines; a line without bytes gives none, and one
refused line refuses the program. DESIGN CHOICE, safe: notes/assumptions/11.md. -/
def assembleFrom (prog : List AsmLine) : List AsmLine → Word → Option (List (Word × List Byte))
  | [], _ => some []
  | l :: ls, here =>
    match l.item.bytes prog here, assembleFrom prog ls (l.item.after here) with
    | some [], some rest => some rest
    | some bs, some rest => some ((here, bs) :: rest)
    | _, _ => none

/-- Assemble a program; addresses begin at 0 until an `.org` says otherwise. -/
def assemble (prog : List AsmLine) : Option (List (Word × List Byte)) := assembleFrom prog prog 0

end Sys2Proof.Machine
end

