-- ==== Sys2Proof/Machine/Flags.lean ====
section
/-! DEFINITION. The flags register (spec/10_state.md R28): no instruction computes a flag, so there is no flag
computation; the host reads the register whole. -/

namespace Sys2Proof.Machine

/-- The reserved bits of `FLAGS`: all 64 (`10_state.md` R28). -/
def flagsReserved : Word := BitVec.allOnes 64

/-- `FLAGS` as the host reads it (`40_engine_cycle.md` R113). -/
def State.readFlags (s : State) : Word := s.flags

end Sys2Proof.Machine
end

