-- ==== Sys2Proof/Machine/HostInterface.lean ====
section
/-! DEFINITION. The host's commands (spec/40_engine_cycle.md R100, R101, R113 to R117), each one atomic transaction. -/

namespace Sys2Proof.Machine

/-- The one construction error (`60_exceptions.md` R151). -/
inductive ConfigError where
  | invalidConfiguration
deriving DecidableEq, Repr

/-- `construct(capacity)` (`40_engine_cycle.md` R114, `20_memory.md` R51). -/
def construct (capacity : Nat) : Except ConfigError State :=
  if capacity = 0 ∨ Config.maxCapacity < capacity then .error .invalidConfiguration
  else .ok (State.constructed capacity)

/-- `load_image(buffer, address)`, that is `load` (`40_engine_cycle.md` R115, `20_memory.md` R54): the number of bytes
written, and the state after. -/
def State.loadImage (s : State) (buffer : List Byte) (address : Word) : Except OutOfBounds (Nat × State) :=
  match s.memWrite address buffer with
  | .error e => .error e
  | .ok t => .ok (buffer.length, t)

/-- At most `n` iterations, stopping where the Engine is no longer `Running` (`40_engine_cycle.md` R101's loop). -/
def runLoop : Nat → State → Host.Outcome State Fault Refusal
  | 0, s => .next s
  | n + 1, s =>
    match s.control with
    | .running =>
      match step s with
      | .next t => runLoop n t
      | .fault r => .fault r
      | .refused r => .refused r
    | .idle => .next s
    | .halted => .next s
    | .faulted => .next s

/-- `run(start_address, max_instructions)` (`40_engine_cycle.md` R100, R101). The loop is given
`max_instructions + 1` iterations, and more would change nothing (R110; the statement `EveryRunTerminates`). -/
def State.run (s : State) (startAddress maxInstructions : Word) : Host.Outcome State Fault Refusal :=
  runLoop (maxInstructions.toNat + 1) (s.enterRun startAddress maxInstructions)

/-- What `observe()` answers (`40_engine_cycle.md` R113); memory is read by the read commands. -/
structure Observation where
  control : Control
  stop : StopRecord
  ip : Word
  gpr : GprFile
  flags : Word
  count : Word
  trace : List TraceEntry
deriving DecidableEq, Repr

/-- `observe()` (R113, R117). -/
def State.observe (s : State) : Observation where
  control := s.control
  stop := s.stop
  ip := s.ip
  gpr := s.gpr
  flags := s.readFlags
  count := s.count
  trace := s.trace

/-- The commands of R117's table. -/
inductive HostCommand where
  | construct (capacity : Nat)
  | loadImage (buffer : List Byte) (address : Word)
  | writeByte (address : Word) (value : Byte)
  | readByte (address : Word)
  | readBytes (address : Word) (length : Nat)
  | run (startAddress maxInstructions : Word)
  | observe
  | destroy
deriving DecidableEq, Repr

/-- What the host gets back (R117's last column). -/
inductive HostReply where
  | constructed
  | invalidConfiguration
  | loaded (n : Nat)
  | written
  | byte (b : Byte)
  | bytes (bs : List Byte)
  | outOfBounds (e : OutOfBounds)
  | returned
  | observed (o : Observation)
  | destroyed
deriving DecidableEq, Repr

/-- What the host faces: an Engine, or none (before construction, after `destroy()`). -/
abbrev World := Option State

/-- A command's effect on an Engine that accepts it. A failed host access changes nothing (`60_exceptions.md` R153). -/
def State.command (s : State) (c : HostCommand) : Host.Outcome (World × HostReply) Fault Refusal :=
  match c with
  | .construct _ => .refused .commandNotAccepted
  | .loadImage buffer address =>
    match s.loadImage buffer address with
    | .ok (n, t) => .next (some t, .loaded n)
    | .error e => .next (some s, .outOfBounds e)
  | .writeByte address value =>
    match s.memWriteByte address value with
    | .ok t => .next (some t, .written)
    | .error e => .next (some s, .outOfBounds e)
  | .readByte address =>
    match s.memReadByte address with
    | .ok b => .next (some s, .byte b)
    | .error e => .next (some s, .outOfBounds e)
  | .readBytes address length =>
    match s.memRead address length with
    | .ok bs => .next (some s, .bytes bs)
    | .error e => .next (some s, .outOfBounds e)
  | .run startAddress maxInstructions =>
    match s.run startAddress maxInstructions with
    | .next t => .next (some t, .returned)
    | .fault r => .fault r
    | .refused r => .refused r
  | .observe => .next (some s, .observed s.observe)
  | .destroy => .next (none, .destroyed)

/-- One host command (R117): `construct` where there is no Engine, every other one on an Engine that is not `Running`
(R116). In any other case the spec describes no effect and the command is refused. -/
def hostStep (w : World) (c : HostCommand) : Host.Outcome (World × HostReply) Fault Refusal :=
  match w with
  | none =>
    match c with
    | .construct capacity =>
      match Sys2Proof.Machine.construct capacity with
      | .ok s => .next (some s, .constructed)
      | .error .invalidConfiguration => .next (none, .invalidConfiguration)
    | .loadImage _ _ => .refused .commandNotAccepted
    | .writeByte _ _ => .refused .commandNotAccepted
    | .readByte _ => .refused .commandNotAccepted
    | .readBytes _ _ => .refused .commandNotAccepted
    | .run _ _ => .refused .commandNotAccepted
    | .observe => .refused .commandNotAccepted
    | .destroy => .refused .commandNotAccepted
  | some s => if s.control = .running then .refused .commandNotAccepted else s.command c

/-- A session of the host: commands one after another, with the replies in order. -/
def hostSteps : World → List HostCommand → Host.Outcome (World × List HostReply) Fault Refusal
  | w, [] => .next (w, [])
  | w, c :: cs =>
    match hostStep w c with
    | .next (v, r) =>
      match hostSteps v cs with
      | .next (u, rs) => .next (u, r :: rs)
      | .fault e => .fault e
      | .refused e => .refused e
    | .fault e => .fault e
    | .refused e => .refused e

end Sys2Proof.Machine
end

