-- ==== Sys2Proof/Safety.lean ====
section
/-! DEFINITION. What a sound state and a safe run are, in the terms the statements use. -/

namespace Sys2Proof.Machine

/-- Whether a byte has a handler of its own (spec/30_encoding.md R83's column "trace kind"). -/
def kindOfOpcode (op : Byte) : TraceKind :=
  if op = Opcode.nop ∨ op = Opcode.jmp then .recognized else .unknown

/-- The memory keeps its canonical form and lists only addresses that exist (`20_memory.md` R50), in a Memory whose
capacity `construct` could have accepted (`00_scope.md` R7). -/
structure State.MemoryOk (s : State) : Prop where
  canonical : s.mem.wf
  exists_below : ∀ c ∈ s.mem, c.1 < s.capacity
  capacity_pos : 1 ≤ s.capacity
  capacity_le : s.capacity ≤ 2 ^ 64 - 1

/-- The stop record agrees with the control state (`10_state.md` R29), the reserved halt is not there
(`60_exceptions.md` R157), a budget stop has the count at the budget (R158), an end-of-memory stop has `IP` outside
memory (R155), and a fault is the one FDE-min has (R152). -/
def State.StopOk (s : State) : Prop :=
  match s.control with
  | .idle => s.stop = .none
  | .running => s.stop = .none
  | .halted =>
    (s.stop = .halted .budget ∧ s.count = s.budget) ∨ (s.stop = .halted .endOfMemory ∧ s.capacity ≤ s.ip.toNat)
  | .faulted =>
    s.ip.toNat = s.capacity ∧
      s.stop = .faulted { accessAddr := s.ip, accessLen := 1, insnAddr := s.ip - 1, ipAtFault := s.ip }

/-- The trace has one entry for each completed handler, and one more after a fault (`10_state.md` R30, R31); each entry
has the kind of its byte, at an address that exists (`40_engine_cycle.md` R105). -/
structure State.TraceOk (s : State) : Prop where
  length_eq : s.trace.length = s.count.toNat + (if s.control = .faulted then 1 else 0)
  kind_eq : ∀ e ∈ s.trace, e.kind = kindOfOpcode e.opcode
  address_lt : ∀ e ∈ s.trace, e.address.toNat < s.capacity

/-- No run completes more handlers than its budget (`40_engine_cycle.md` R110). -/
abbrev State.CountOk (s : State) : Prop := s.count.toNat ≤ s.budget.toNat

/-- Nothing ever writes `FLAGS` or a general-purpose register, so they hold their value at construction
(`10_state.md` R23, R28). -/
structure State.RegistersZero (s : State) : Prop where
  flags_zero : s.flags = 0
  gpr_zero : ∀ r, s.gpr.get r = 0

/-- The invariant of every Engine state. -/
structure State.Inv (s : State) : Prop where
  memory : s.MemoryOk
  stop : s.StopOk
  trace : s.TraceOk
  count : s.CountOk
  registers : s.RegistersZero

/-- Every trace entry's opcode is the byte memory holds at its address: true within a run, where memory does not change
(`10_state.md` R30, `20_memory.md` R68). -/
abbrev State.TraceFromMemory (s : State) : Prop := ∀ e ∈ s.trace, s.mem.read e.address.toNat = e.opcode

/-- An outcome that is a next state. -/
def Completes (o : Host.Outcome State Fault Refusal) : Prop := ∃ t, o = .next t

/-- A state at which the loop's next iteration executes an instruction (`40_engine_cycle.md` R102): running, budget
left, `IP` in memory. -/
abbrev State.Executes (s : State) : Prop :=
  s.control = .running ∧ s.count.toNat < s.budget.toNat ∧ s.ip.toNat < s.capacity

/-- A state in which a run has ended, by a halt or by a fault (`10_state.md` R29). -/
abbrev State.Terminal (s : State) : Prop := s.control = .halted ∨ s.control = .faulted

/-- `iterate()` as the spec writes it (`40_engine_cycle.md` R102, with the handlers of R130, R131 and R140 and the fault
of `60_exceptions.md` R152 written in place): every byte is read from memory where the pseudocode reads it. The machine's
`step` is stated to agree with it; nothing of the machine is built from it. -/
def iteratePseudocode (s : State) : State :=
  if s.budget.toNat ≤ s.count.toNat then { s with control := .halted, stop := .halted .budget }
  else if s.capacity < s.ip.toNat + 1 then { s with control := .halted, stop := .halted .endOfMemory }
  else
    let a := s.ip
    let op := s.mem.read a.toNat
    let s1 : State := { s with ip := a + 1, trace := s.trace ++ [⟨a, op, kindOfOpcode op⟩] }
    if op = 0xEB then
      if s.capacity < s1.ip.toNat + 1 then
        { s1 with
          control := .faulted
          stop := .faulted { accessAddr := s1.ip, accessLen := 1, insnAddr := a, ipAtFault := s1.ip } }
      else
        let d := s1.mem.read s1.ip.toNat
        { s1 with ip := s1.ip + 1 + sext64 d, count := s1.count + 1 }
    else { s1 with count := s1.count + 1 }

/-- A host's change of memory (`20_memory.md` R54, R57). -/
inductive MemOp where
  | write (addr : Word) (v : Byte)
  | load (addr : Word) (bs : List Byte)
deriving DecidableEq, Repr

/-- The state after a change of memory; one that fails the bound leaves the state (`20_memory.md` R59). -/
def State.afterMemOp (s : State) (op : MemOp) : State :=
  match op with
  | .write addr v =>
    match s.memWriteByte addr v with
    | .ok t => t
    | .error _ => s
  | .load addr bs =>
    match s.loadImage bs addr with
    | .ok (_, t) => t
    | .error _ => s

/-- The byte that a successful change puts at address `a`, in a Memory of `capacity` bytes; `none` where it puts none. -/
def MemOp.byteAt (capacity : Nat) (op : MemOp) (a : Nat) : Option Byte :=
  match op with
  | .write addr v => if addr.toNat < capacity ∧ addr.toNat = a then some v else none
  | .load addr bs => if addr.toNat + bs.length ≤ capacity ∧ addr.toNat ≤ a then bs[a - addr.toNat]? else none

/-- The last value that a history (newest change first) put at address `a`, 0 if none (`20_memory.md` R58). -/
def lastWritten (capacity : Nat) : List MemOp → Nat → Byte
  | [], _ => 0
  | op :: earlier, a => (op.byteAt capacity a).getD (lastWritten capacity earlier a)

/-- The state after a history (newest change first) from construction. -/
def afterHistory (capacity : Nat) : List MemOp → State
  | [] => State.constructed capacity
  | op :: earlier => (afterHistory capacity earlier).afterMemOp op

/-- Where `IP` stands after the instruction at `a` completes (`10_state.md` R26's table). -/
def State.nextAddress (s : State) (a : Word) : Word :=
  if s.mem.read a.toNat = Opcode.jmp then a + 2 + sext64 (s.mem.read (a + 1).toNat) else a + 1

end Sys2Proof.Machine
end

