-- ==== Sys2Proof/Certificates/Slice0/Obligations.lean ====
section
/-! DEFINITION. The statements for the provers. Each docstring names the rule of spec/ it formalises; where a rule's
content is one of the spec's own decisions (spec/92_eei_decisions.md D<n>) or the model's choice (notes/assumptions), it
says so. -/

section Statements

open Sys2Proof Sys2Proof.Machine

/-! ## Encoding -/

/-- `30_encoding.md` section 2 (the opcode map) and its one field: five words written out from the encodings. The
opcode set and the field are the spec's own decisions D5 and D6 (log entry 12). -/
def Obligations.SampleWordsDecode : Prop :=
  decode [0b10010000] = .ok (.nop, []) ∧
  decode [0b11101011, 0b11111110] = .ok (.jmp (some 0xFE), []) ∧
  decode [0b11101011, 0b00000010, 0b10010000] = .ok (.jmp (some 0x02), [0x90]) ∧
  decode [0b11111111] = .ok (.unknown 0xFF, []) ∧
  decodeTableWord 16 0b0111111111101011 = some (.jmp (some 0x7F))

/-- `30_encoding.md` sections 1 and 2: decoding the encoding of any well-formed instruction, whatever bytes follow,
gives the instruction back and leaves those bytes. The opcode set is the spec's own decision D5 (log entry 12). -/
def Obligations.DecodeOfEncode : Prop :=
  ∀ (i : Instr) (rest : List Byte), i.wf = true →
    decode (encode i ++ rest) = .ok (i, rest) ∧ (encode i).length = insnLength i.opcode

/-- The other direction: what decodes is the encoding of what it decodes to. The only term that is no whole
instruction is the JMP whose displacement byte is not there, with nothing left (the model's form, log entry 5). The
opcode set is the spec's own decision D5 (log entry 12). -/
def Obligations.EncodeOfDecode : Prop :=
  ∀ (bytes rest : List Byte) (i : Instr), decode bytes = .ok (i, rest) →
    bytes = encode i ++ rest ∧ (i.wf = true ∨ (i = .jmp none ∧ bytes = [0xEB]))

/-- The IP-advance contract's purpose (`40_engine_cycle.md` section 2: "failing to do so desynchronizes decoding for
all subsequent instructions"), on the encoding: a whole sequence of well-formed instructions, laid end to end, decodes
back instruction by instruction, and no other sequence has its bytes. The opcode set is the spec's own decision D5
(log entry 12). -/
def Obligations.InstructionStreamRoundTrip : Prop :=
  ∀ (is : List Instr) (rest : List Byte), (∀ i ∈ is, i.wf = true) →
    decodeStream is.length (is.flatMap encode ++ rest) = is ∧
      ∀ js : List Instr, (∀ j ∈ js, j.wf = true) → js.flatMap encode = is.flatMap encode → js = is

/-- `00_scope.md` section 5 (the spec's own decision D7, log entry 12): `sext_64(b)` is `b` below 0x80 and `b +
0xFFFF_FFFF_FFFF_FF00` otherwise, the pattern of `sint8(b)`. -/
def Obligations.SignExtensionFormula : Prop :=
  ∀ b : Byte,
    sext64 b = (if b.toNat < 0x80 then zext64 b else zext64 b + 0xFFFFFFFFFFFFFF00) ∧
      (sext64 b).toInt = sint8 b ∧ (zext64 b).toNat = b.toNat

/-- `30_encoding.md` section 4 (derived in the spec): the assembler's displacement exists exactly for targets from
`here - 126` to `here + 129`, and executing the assembled jump at `here` lands on the target. The displacement and the
wrap are the spec's own decisions D6 and D7 (log entry 12). -/
def Obligations.AssembledJumpReachesItsTarget : Prop :=
  ∀ (s : State) (target : Word),
    ((∃ d, jumpDisplacement s.ip target = some d) ↔
      ((s.ip.toNat : Int) - 126 ≤ target.toNat ∧ (target.toNat : Int) ≤ s.ip.toNat + 129)) ∧
    ∀ d, jumpDisplacement s.ip target = some d → (s.ip + 1).toNat < s.capacity →
      ∃ t, exec (.jmp (some d)) s = .next t ∧ t.ip = target

/-! ## Registers -/

/-- `00_scope.md` section 5 and `10_state.md` section 1: `GPR[i]` reads register `i`, `GPR[i] <- v` writes it and nothing
else, `IP <- v` writes `IP` and nothing else, `FLAGS` is read as the flags register. Which index names which register
(the last clause) is the spec's own decision D3 (log entry 12). -/
def Obligations.RegisterAccess : Prop :=
  ∀ (s : State) (i : Fin 8) (v : Word),
    (∀ j, (s.writeGpr i v).readGpr j = if j = i then v else s.readGpr j) ∧
    s.writeGpr i v = { s with gpr := (s.writeGpr i v).gpr } ∧
    s.setIp v = { s with ip := v } ∧
    s.readFlags = s.flags ∧
    [s.readGpr 0, s.readGpr 1, s.readGpr 2, s.readGpr 3, s.readGpr 4, s.readGpr 5, s.readGpr 6, s.readGpr 7] =
      [s.gpr.a, s.gpr.b, s.gpr.c, s.gpr.d, s.gpr.si, s.gpr.di, s.gpr.bp, s.gpr.sp]

/-! ## Memory -/

/-- `20_memory.md` section 3 (`read_bytes`, `read_byte`): they answer exactly in bounds, with the bytes in increasing
address order; otherwise they give no data. That the bound's sum does not wrap is the spec's own decision D13 (log
entry 12). -/
def Obligations.ReadsAnswerExactlyInBounds : Prop :=
  ∀ (s : State) (addr : Word) (n : Nat),
    (addr.toNat + n ≤ s.capacity →
      ∃ bs : List Byte, s.memRead addr n = .ok bs ∧ bs.length = n ∧
        ∀ k (hk : k < bs.length), bs[k] = s.mem.read (addr.toNat + k)) ∧
    (s.capacity < addr.toNat + n → s.memRead addr n = .error ⟨addr, n⟩) ∧
    s.memRead addr 1 = (s.memReadByte addr).map (fun b => [b])

/-- R54: `load` is all or nothing. In bounds every byte of the buffer lands at its address, every other byte and every
other part of the state is as before, and the number of bytes is returned; out of bounds the state is as before. -/
def Obligations.LoadIsAllOrNothing : Prop :=
  ∀ (s : State) (buffer : List Byte) (addr : Word), s.mem.wf →
    (addr.toNat + buffer.length ≤ s.capacity →
      ∃ t, s.loadImage buffer addr = .ok (buffer.length, t) ∧
        t = { s with mem := t.mem } ∧
        (∀ k (hk : k < buffer.length), t.mem.read (addr.toNat + k) = buffer[k]) ∧
        ∀ a, a < addr.toNat ∨ addr.toNat + buffer.length ≤ a → t.mem.read a = s.mem.read a) ∧
    (s.capacity < addr.toNat + buffer.length → s.loadImage buffer addr = .error ⟨addr, buffer.length⟩)

/-- R57: `write_byte` changes the one byte exactly in bounds; `MemWrite` is the all-or-nothing write of `load`; no
instruction writes memory, and no step does. -/
def Obligations.WriteByteAndNoInstructionWrites : Prop :=
  (∀ (s : State) (addr : Word) (v : Byte), s.mem.wf →
    (addr.toNat < s.capacity →
      ∃ t, s.memWriteByte addr v = .ok t ∧ t = { s with mem := t.mem } ∧
        ∀ a, t.mem.read a = if a = addr.toNat then v else s.mem.read a) ∧
    (s.capacity ≤ addr.toNat → s.memWriteByte addr v = .error ⟨addr, 1⟩)) ∧
  (∀ (s : State) (addr : Word) (v : List Byte),
    s.loadImage v addr = (s.memWrite addr v).map (fun t => (v.length, t))) ∧
  (∀ (i : Instr) (s t : State), exec i s = .next t → t.mem = s.mem) ∧
  ∀ s t : State, step s = .next t → t.mem = s.mem

/-- R58: a byte written is read back; and after any history of writes and loads, failed ones among them, a read of any
address in bounds gives the last value a successful one put there, 0 if none did. -/
def Obligations.ReadsReturnTheLastWrite : Prop :=
  (∀ (s : State) (a : Word) (v : Byte), s.mem.wf → a.toNat < s.capacity →
    ∃ t, s.memWriteByte a v = .ok t ∧ t.memReadByte a = .ok v) ∧
  ∀ (capacity : Nat) (history : List MemOp) (a : Word), a.toNat < capacity →
    (afterHistory capacity history).memReadByte a = .ok (lastWritten capacity history a.toNat)

/-- The canonical form is canonical: two memories in it that read alike at every address are equal (the model's own
representation, log entry 8). -/
def Obligations.EqualReadsMeanEqualMemory : Prop :=
  ∀ m n : Memory, m.wf → n.wf → (∀ a, m.read a = n.read a) → m = n

/-- `20_memory.md` section 5 (the spec's own decision D12, log entry 12): the declared little-endian value is the sum
of `byte[k] * 256^k`. -/
def Obligations.LittleEndianValueIsTheSum : Prop :=
  ∀ bs : List Byte,
    littleEndian bs = ∑ k ∈ Finset.range bs.length, (bs.getD k 0).toNat * 256 ^ k ∧ littleEndian bs < 256 ^ bs.length

/-! ## The top of an iteration -/

/-- A step runs the decoded instruction: where the loop executes, the bytes at `IP` decode, and the step is `exec` of
the decoded instruction at that state. That the fetch takes the byte after the opcode too, where the spec's fetch
takes one byte and leaves the other to the handler, is the model's form (log entry 5); that `step` adds nothing around
`exec` is the model's form (log entry 10). The order of the checks before it and the opcode set are the spec's own
decisions D8 and D5 (log entry 12). -/
def Obligations.StepRunsTheDecodedInstruction : Prop :=
  ∀ s : State, s.Executes →
    s.insnBytes = s.mem.read s.ip.toNat ::
      (if (s.ip + 1).toNat < s.capacity then [s.mem.read (s.ip + 1).toNat] else []) ∧
    ∃ i rest, decode s.insnBytes = .ok (i, rest) ∧ step s = exec i s

/-- R156: at the top of an iteration with `count >= budget` the run stops `Halted(Budget)`, and nothing else changes. -/
def Obligations.BudgetExhaustionHalts : Prop :=
  ∀ s : State, s.control = .running → s.budget.toNat ≤ s.count.toNat →
    step s = .next { s with control := .halted, stop := .halted .budget }

/-- R155: at the top of an iteration whose budget is not exhausted, `IP >= CAPACITY` stops the run
`Halted(EndOfMemory)` with `IP` unchanged. -/
def Obligations.EndOfMemoryHalts : Prop :=
  ∀ s : State, s.control = .running → s.count.toNat < s.budget.toNat → s.capacity ≤ s.ip.toNat →
    step s = .next { s with control := .halted, stop := .halted .endOfMemory }

/-- `60_exceptions.md` section 5 ("all state survives in them unchanged until the host's next command"): outside
`Running` a step changes nothing. That such a step exists is the model's reading (log entry 1). -/
def Obligations.NothingMovesOutsideRunning : Prop :=
  ∀ s : State, s.control ≠ .running → step s = .next s

/-- The refinement: at every running state the machine's step is `iterate()` as `40_engine_cycle.md` section 2 writes
it. The check order is the spec's own decision D8, the opcode set D5, the jump D6 and D7, the count D9, the trace D10,
the fault record D11 (log entry 12); that a fault is a next state is the model's reading (log entry 7). -/
def Obligations.StepIsTheSpecsIteration : Prop :=
  ∀ s : State, s.control = .running → step s = .next (iteratePseudocode s)

/-- No step and no instruction stops the model: every state has a next state, whatever the control state and the
bytes. That a step exists outside `Running` is the model's reading (log entry 1), as is that a fault of a run is a
next state (log entry 7); that terms which are no whole instruction (`jmp none`, `unknown 0x90`) have a meaning is the
model's form (log entry 5). -/
def Obligations.EveryStepAnswersANextState : Prop :=
  (∀ s : State, Completes (step s)) ∧ ∀ (i : Instr) (s : State), Completes (exec i s)

/-! ## The instructions -/

/-- R130: NOP, whole. Its effect at any state; at the last byte the next iteration stops, by the budget first; and the
rule's example. -/
def Obligations.NopRecordsAndAdvances : Prop :=
  (∀ s : State,
    exec .nop s = .next
      { s with ip := s.ip + 1, trace := s.trace ++ [⟨s.ip, 0x90, .recognized⟩], count := s.count + 1 }) ∧
  (∀ s : State, s.Executes → s.mem.read s.ip.toNat = 0x90 → s.ip.toNat + 1 = s.capacity → s.capacity ≤ 2 ^ 64 - 1 →
    ∃ t, step s = .next t ∧ t.ip.toNat = s.capacity ∧ t.count.toNat = s.count.toNat + 1 ∧
      step t = .next (t.halt (if t.count.toNat < t.budget.toNat then .endOfMemory else .budget))) ∧
  ∀ s : State, s.control ≠ .running → 0 < s.capacity → s.mem.read 0 = 0x90 →
    hostStep (some s) (.run 0 1) = .next
      (some { s with
        ip := 1, count := 1, budget := 1, trace := [⟨0, 0x90, .recognized⟩]
        control := .halted, stop := .halted .budget }, .returned)

/-- R85 and R154: no byte is illegal. At an executing state whose byte is any of the 254, the step is that of
UnknownOpcode: the Engine goes on `Running`, the trace entry is the only record. -/
def Obligations.UnknownBytesExecuteAndContinue : Prop :=
  (∀ (b : Byte) (rest : List Byte), ∃ i tail, decode (b :: rest) = .ok (i, tail)) ∧
  ∀ s : State, s.Executes → s.mem.read s.ip.toNat ≠ 0x90 → s.mem.read s.ip.toNat ≠ 0xEB →
    step s = .next
      { s with
        ip := s.ip + 1, trace := s.trace ++ [⟨s.ip, s.mem.read s.ip.toNat, .unknown⟩], count := s.count + 1
        control := .running }

/-- `41_nop_and_unknown.md`: from any state UNKNOWN gives the entry and the state that differs only in `IP`, the count and
the trace; and feeding the same unrecognised byte at the same address any number of times gives the same entry and state
each time. That each run ends with count 1 and one entry rests on the resets at run entry, the spec's own decisions D9,
D10 and D19 (log entry 12). -/
def Obligations.UnknownOpcodeIsIdempotent : Prop :=
  (∀ (op : Byte) (s : State), op ≠ 0x90 → op ≠ 0xEB →
    exec (.unknown op) s = .next
      { s with ip := s.ip + 1, trace := s.trace ++ [⟨s.ip, op, .unknown⟩], count := s.count + 1 }) ∧
  ∀ (s : State) (a : Word) (n : Nat), s.control ≠ .running → a.toNat < s.capacity →
    s.mem.read a.toNat ≠ 0x90 → s.mem.read a.toNat ≠ 0xEB →
    hostSteps (some s) (List.replicate (n + 1) (.run a 1)) = .next
      (some { s with
        ip := a + 1, count := 1, budget := 1, trace := [⟨a, s.mem.read a.toNat, .unknown⟩]
        control := .halted, stop := .halted .budget }, List.replicate (n + 1) .returned)

/-- `42_control_transfer.md` (JMP rel8): with its displacement byte in memory, JMP completes at every displacement:
`IP` is the address after the displacement plus its sign-extended value, modulo `2^64`. The second clause is the jump
to itself (conflict C1). The displacement and the wrap are the spec's own decisions D6 and D7, the count D9, the entry
D10 (log entry 12). -/
def Obligations.JmpTransfersControl : Prop :=
  (∀ (d : Byte) (s : State), (s.ip + 1).toNat < s.capacity →
    exec (.jmp (some d)) s = .next
      { s with
        ip := s.ip + 2 + sext64 d, trace := s.trace ++ [⟨s.ip, 0xEB, .recognized⟩], count := s.count + 1 }) ∧
  ∀ s : State, s.ip + 2 + sext64 0xFE = s.ip

/-- `42_control_transfer.md` and `60_exceptions.md` section 1: with its displacement byte out of bounds, JMP takes the
fault `OutOfBounds`: the four fields are recorded and `IP` stays past the opcode (the spec's own decision D11), the
entry stays (D10), nothing is counted (D9; log entry 12). A JMP that the fetch gave no displacement byte does the same
(the model's form, log entry 5). The fault is a next state (log entry 7). -/
def Obligations.JmpWithoutDisplacementFaults : Prop :=
  ∀ (d : Option Byte) (s : State), d = none ∨ s.capacity ≤ (s.ip + 1).toNat →
    exec (.jmp d) s = .next
      { s with
        ip := s.ip + 1, trace := s.trace ++ [⟨s.ip, 0xEB, .recognized⟩], control := .faulted
        stop := .faulted
          { accessAddr := s.ip + 1, accessLen := 1, insnAddr := s.ip, ipAtFault := s.ip + 1 } }

/-- `30_encoding.md` section 3 and `60_exceptions.md` section 1: the opcode `0xEB` as the last byte of memory is
executed and its operand fetch raises `OutOfBounds`; that is the only step that faults; and any byte `IP` points at
decodes by the dispatch table (the opcode set is the spec's own decision D5). In the last clause the count is the
spec's own decision D9, the fault record and the `IP` that is not rolled back are D11 (log entry 12). The fault is a
next state (log entry 7). -/
def Obligations.OnlyACutOffJumpFaults : Prop :=
  ∀ s : State, s.Executes → s.capacity ≤ 2 ^ 64 - 1 →
    s.fetchInsn = some (decodeOpcode (s.mem.read s.ip.toNat) s.operandAt) ∧
    ((∃ t, step s = .next t ∧ t.control = .faulted) ↔
      (s.mem.read s.ip.toNat = 0xEB ∧ s.ip.toNat + 1 = s.capacity)) ∧
    ∀ t, step s = .next t → t.control = .faulted →
      t.ip.toNat = s.capacity ∧ t.count = s.count ∧ t.mem = s.mem ∧
        t.stop = .faulted { accessAddr := t.ip, accessLen := 1, insnAddr := s.ip, ipAtFault := t.ip }

/-- `42_control_transfer.md`: a jump whose target is out of memory, by its size or by wrapping below 0, is no fault:
the next iteration stops `Halted(EndOfMemory)` with `IP` at that value, unless the budget is exhausted first. The
displacement is the spec's own decision D6, the wrap and the halt D7, the order of the checks D8 (log entry 12). -/
def Obligations.JumpOutOfMemoryHaltsNormally : Prop :=
  ∀ (s : State) (d : Byte), s.Executes → s.mem.read s.ip.toNat = 0xEB → (s.ip + 1).toNat < s.capacity →
    s.mem.read (s.ip + 1).toNat = d → s.capacity ≤ (s.ip + 2 + sext64 d).toNat →
    ∃ t, step s = .next t ∧ t.control = .running ∧ t.ip = s.ip + 2 + sext64 d ∧
      step t = .next (t.halt (if t.count.toNat < t.budget.toNat then .endOfMemory else .budget))

/-- R26: where each instruction that completes leaves `IP`. -/
def Obligations.InstructionPointerAfterEachInstruction : Prop :=
  ∀ s : State, s.Executes →
    ∃ t, step s = .next t ∧
      (s.mem.read s.ip.toNat = 0x90 → t.ip = s.ip + 1) ∧
      (s.mem.read s.ip.toNat ≠ 0x90 ∧ s.mem.read s.ip.toNat ≠ 0xEB → t.ip = s.ip + 1) ∧
      (s.mem.read s.ip.toNat = 0xEB ∧ (s.ip + 1).toNat < s.capacity →
        t.ip = (s.ip + 2) + sext64 (s.mem.read (s.ip + 1).toNat))

/-- `41_nop_and_unknown.md`, the frame of NOP and UNKNOWN: every general-purpose register, `FLAGS`, the stop record,
the control state, the budget, the capacity and every byte of memory are unchanged; the trace keeps its entries. That
no instruction touches `FLAGS` or a general-purpose register is the spec's own decisions D4 and D24, that the trace is
only appended to D10 (log entry 12). An `unknown` of a recognised byte, which no decoder answers, is covered too (the
model's form, log entry 5). -/
def Obligations.OneByteInstructionFrame : Prop :=
  ∀ (i : Instr) (s t : State), (i = .nop ∨ ∃ op, i = .unknown op) → exec i s = .next t →
    (∀ r, t.readGpr r = s.readGpr r) ∧ t.flags = s.flags ∧ t.control = s.control ∧ t.stop = s.stop ∧
    t.budget = s.budget ∧ t.capacity = s.capacity ∧ s.trace <+: t.trace ∧
    (∀ a, t.memReadByte a = s.memReadByte a)

/-- `42_control_transfer.md`, the frame of JMP, in every form: registers other than `IP`, `FLAGS`, the budget, the
capacity and every byte of memory are unchanged, the trace keeps its entries; the control state and the stop record
change only where it faults, and the count only where it does not. That nothing is counted at a fault is the spec's
own decision D9, what else the fault leaves D11, the registers and `FLAGS` D24 and D4, the trace D10 (log entry 12);
the form without a displacement byte, `jmp none`, is the model's (log entry 5). -/
def Obligations.JmpFrame : Prop :=
  ∀ (d : Option Byte) (s t : State), exec (.jmp d) s = .next t →
    (∀ r, t.readGpr r = s.readGpr r) ∧ t.flags = s.flags ∧ t.budget = s.budget ∧ t.capacity = s.capacity ∧
    s.trace <+: t.trace ∧ (∀ a, t.memReadByte a = s.memReadByte a) ∧
    ((d ≠ none ∧ (s.ip + 1).toNat < s.capacity → t.control = s.control ∧ t.stop = s.stop) ∧
      (d = none ∨ s.capacity ≤ (s.ip + 1).toNat → t.count = s.count))

/-! ## Reset and construction -/

/-- `10_state.md` section 8: every piece of state after construction of any capacity. `FLAGS` is the spec's own
decision D4, the count D9, the trace D10, the stop record D18, that construction is the only reset D23 (log entry 12).
The capacity of `State.reset` (log entry 2) and the value of `budget` (log entry 3) are the model's choices and are
not claimed here. -/
def Obligations.ConstructionLeavesEverythingZero : Prop :=
  ∀ capacity : Nat,
    (State.constructed capacity).capacity = capacity ∧
    (∀ a : Word, a.toNat < capacity → (State.constructed capacity).memReadByte a = .ok 0) ∧
    (State.constructed capacity).ip = 0 ∧ (∀ r, (State.constructed capacity).readGpr r = 0) ∧
    (State.constructed capacity).flags = 0 ∧ (State.constructed capacity).control = .idle ∧
    (State.constructed capacity).stop = .none ∧ (State.constructed capacity).trace = [] ∧
    (State.constructed capacity).count = 0 ∧ State.reset = State.constructed State.reset.capacity

/-- R151: `InvalidConfiguration` is the answer exactly when a capacity of 0 or above `MAX_CAPACITY` is constructed; no
Engine is built by it, and it cannot occur once an Engine exists. -/
def Obligations.InvalidConfigurationExactlyAtConstruction : Prop :=
  ∀ (w v : World) (c : HostCommand),
    hostStep w c = .next (v, .invalidConfiguration) ↔
      (w = none ∧ v = none ∧ ∃ capacity, c = .construct capacity ∧ (capacity = 0 ∨ Config.maxCapacity < capacity))

/-- `40_engine_cycle.md` section 4: construction with any other capacity gives the Engine of `10_state.md` section 8,
and `MAX_CAPACITY` is within its bounds, so that a capacity of 1 always constructs. The bounds are the spec's own
decision D14, the command D15 (log entry 12); that the ceiling has no value is the model's form (log entry 4), and the
0 in the constructed Engine's `budget` its choice (log entry 3). -/
def Obligations.ConstructionGivesTheEngine : Prop :=
  (∀ capacity : Nat, hostStep none (.construct capacity) =
    if capacity = 0 ∨ Config.maxCapacity < capacity then .next (none, .invalidConfiguration)
    else .next (some (State.constructed capacity), .constructed)) ∧
  1 ≤ Config.maxCapacity ∧ Config.maxCapacity ≤ 2 ^ 64 - 1

/-- R184: capacity 8192, 21 bytes at 0x7C00: `OutOfBounds`, the Engine stays `Idle`, all memory stays 0. -/
def Obligations.OversizedImageIsNotLoaded : Prop :=
  ∀ image : List Byte, image.length = 21 →
    ∃ s, hostStep (some (State.constructed 8192)) (.loadImage image 0x7C00) =
        .next (some s, .outOfBounds ⟨0x7C00, 21⟩) ∧
      s = State.constructed 8192 ∧ s.control = .idle ∧ ∀ a : Word, a.toNat < 8192 → s.memReadByte a = .ok 0

/-! ## The host's commands -/

/-- `40_engine_cycle.md` section 4: which commands are accepted. `construct` where there is no Engine, every other
command on an Engine that is not `Running`, from `Halted` and `Faulted` too. The commands and their states are the
spec's own decision D15, re-entry D19 (log entry 12); that a command elsewhere is refused is the model's choice (log
entry 9). -/
def Obligations.CommandsAcceptedOutsideRunning : Prop :=
  (∀ c : HostCommand, (∃ r, hostStep none c = .next r) ↔ ∃ capacity, c = .construct capacity) ∧
  ∀ (s : State) (c : HostCommand),
    (∃ r, hostStep (some s) c = .next r) ↔ (s.control ≠ .running ∧ ∀ capacity, c ≠ .construct capacity)

/-- `20_memory.md` section 4: no address has a side effect. Reads leave the Engine as it is, so that repeating one gives
the same answer, and so does `observe`, by the command table (`40_engine_cycle.md` section 4, the spec's own decision D15,
log entry 12); a write or a load changes nothing but the bytes it names. -/
def Obligations.MemoryAccessHasNoSideEffect : Prop :=
  (∀ (s : State) (c : HostCommand) (w : World) (r : HostReply),
    ((∃ a, c = .readByte a) ∨ (∃ a n, c = .readBytes a n) ∨ c = .observe) → hostStep (some s) c = .next (w, r) →
      w = some s ∧ hostStep w c = .next (w, r)) ∧
  (∀ (s : State) (a : Word) (v : Byte) (w : World) (r : HostReply),
    hostStep (some s) (.writeByte a v) = .next (w, r) →
      ∃ t, w = some t ∧ t = { s with mem := t.mem } ∧ ∀ b, b ≠ a.toNat → t.mem.read b = s.mem.read b) ∧
  ∀ (s : State) (bs : List Byte) (a : Word) (w : World) (r : HostReply),
    hostStep (some s) (.loadImage bs a) = .next (w, r) →
      ∃ t, w = some t ∧ t = { s with mem := t.mem } ∧
        ∀ b, b < a.toNat ∨ a.toNat + bs.length ≤ b → t.mem.read b = s.mem.read b

/-- `60_exceptions.md` section 1 and `20_memory.md` section 3: a failed host access is answered `OutOfBounds` with the
address and the length asked for, exactly when the bound rule fails, and changes nothing. The commands are the spec's
own decision D15, the bound's sum that does not wrap D13 (log entry 12). -/
def Obligations.FailedHostAccessChangesNothing : Prop :=
  ∀ (s : State), s.control ≠ .running →
    (∀ a, hostStep (some s) (.readByte a) = .next (some s, .outOfBounds ⟨a, 1⟩) ↔ s.capacity ≤ a.toNat) ∧
    (∀ a n, hostStep (some s) (.readBytes a n) = .next (some s, .outOfBounds ⟨a, n⟩) ↔ s.capacity < a.toNat + n) ∧
    (∀ a v, hostStep (some s) (.writeByte a v) = .next (some s, .outOfBounds ⟨a, 1⟩) ↔ s.capacity ≤ a.toNat) ∧
    (∀ bs a, hostStep (some s) (.loadImage bs a) = .next (some s, .outOfBounds ⟨a, bs.length⟩) ↔
      s.capacity < a.toNat + bs.length) ∧
    ∀ (c : HostCommand) (w : World) (e : OutOfBounds), hostStep (some s) c = .next (w, .outOfBounds e) → w = some s

/-- `40_engine_cycle.md` section 3: what the host reads, all of it. That `observe()` and `read_byte` are answered on
every Engine that is not `Running`, `Idle` included, and leave it unchanged is the command table's (section 4), the
spec's own decision D15 (log entry 12). -/
def Obligations.ObservationIsTheWholeOutput : Prop :=
  ∀ (s : State), s.control ≠ .running →
    hostStep (some s) .observe = .next (some s, .observed
      { control := s.control, stop := s.stop, ip := s.ip, gpr := s.gpr, flags := s.flags, count := s.count,
        trace := s.trace }) ∧
    ∀ a : Word, a.toNat < s.capacity →
      hostStep (some s) (.readByte a) = .next (some s, .byte (s.mem.read a.toNat))

/-! ## Runs -/

/-- `40_engine_cycle.md` section 1: run entry sets the control state, the stop record, `IP`, the budget, the count and
the trace, and keeps registers, flags and memory; a run with budget 0 then stops at once without executing. The count
is the spec's own decision D9, the trace D10, what is kept D19, budget 0 D8, the arguments' types D20 (log entry 12).
-/
def Obligations.RunEntryAndEmptyBudget : Prop :=
  ∀ (s : State) (a m : Word),
    s.enterRun a m =
      { s with control := .running, stop := .none, ip := a, budget := m, count := 0, trace := [] } ∧
    s.run a 0 = .next
      { s with control := .halted, stop := .halted .budget, ip := a, budget := 0, count := 0, trace := [] }

/-- `40_engine_cycle.md` section 2 (termination, derived in the spec): every run, from any state and with any bytes in
memory, ends `Halted` or `Faulted`, having completed at most `max_instructions` handlers, within `max_instructions +
1` iterations; giving the loop more changes nothing. The check order is the spec's own decision D8, the count D9, the
trace D10 (log entry 12). That the host's own iteration of `step`, `Host.Core.run`, returns the same state for every
larger number rests on the model's reading that a step outside `Running` changes nothing (log entry 1). -/
def Obligations.EveryRunTerminates : Prop :=
  ∀ (s : State) (a m : Word),
    ∃ t, s.run a m = .next t ∧ t.Terminal ∧ t.count.toNat ≤ m.toNat ∧ t.trace.length ≤ m.toNat ∧
      ∀ n, m.toNat + 1 ≤ n → runLoop n (s.enterRun a m) = .next t ∧ Host.Core.run Sys2Proof.core n (s.enterRun a m) = .next t

/-- `10_state.md` sections 1, 3 and 6: during any run every general-purpose register, `FLAGS`, every byte of memory
and the capacity keep the value they had at run entry, and the budget is the run's. `FLAGS` is the spec's own decision
D4, the registers D24, what run entry keeps D19, the budget D20 (log entry 12). -/
def Obligations.RunsKeepRegistersAndMemory : Prop :=
  ∀ (s t : State) (a m : Word), s.run a m = .next t →
    (∀ r, t.readGpr r = s.readGpr r) ∧ t.flags = s.flags ∧ t.mem = s.mem ∧ t.capacity = s.capacity ∧ t.budget = m

/-- `10_state.md` sections 1 and 3: no instruction reads a general-purpose register or `FLAGS` (the spec's own
decisions D24 and D4, log entry 12), so two Engines that differ only in them run alike and end differing only in them.
-/
def Obligations.RegistersDoNotInfluenceRuns : Prop :=
  ∀ (s t : State) (a m : Word) (g : GprFile) (f : Word), s.run a m = .next t →
    State.run { s with gpr := g, flags := f } a m = .next { t with gpr := g, flags := f }

/-- `60_exceptions.md` section 2 ("execution can be resumed"): a run whose budget is spent can be gone on with:
`run(a, m)` stopped by its budget, followed by `run` at the `IP` it left, is `run(a, m + n)` cut in two. The check
order is the spec's own decision D8, the count D9, the trace D10, re-entry D19 (log entry 12). -/
def Obligations.ResumedRunsCompose : Prop :=
  ∀ (s t u : State) (a m n : Word), m.toNat + n.toNat < 2 ^ 64 →
    s.run a m = .next t → t.stop = .halted .budget → t.run t.ip n = .next u →
    s.run a (m + n) = .next { u with count := m + u.count, trace := t.trace ++ u.trace, budget := m + n }

/-- `60_exceptions.md` section 5 (single stepping, derived in the spec): `run(IP, 1)` at an address in memory executes
one instruction, as one step from run entry does, and then stops by its budget unless that instruction faulted. The
check order is the spec's own decision D8, the count D9, run entry D19 (log entry 12). -/
def Obligations.RunOfOneIsASingleStep : Prop :=
  ∀ (s : State), s.ip.toNat < s.capacity →
    ∃ t, step (s.enterRun s.ip 1) = .next t ∧
      ((t.control = .faulted ∧ s.run s.ip 1 = .next t) ∨
        (t.control = .running ∧ t.count = 1 ∧ s.run s.ip 1 = .next (t.halt .budget)))

/-- `10_state.md` section 5 (the trace): after any run each entry's opcode is the byte memory holds at its address,
with the kind of that byte; the first entry is at the start address, and each next entry is where `IP` stood after the
one before. The trace is the spec's own decision D10, the kinds follow its opcode set D5, a jump's target D6 and D7
(log entry 12). -/
def Obligations.TheTraceIsTheExecutedPath : Prop :=
  ∀ (s t : State) (a m : Word), s.run a m = .next t →
    (∀ e ∈ t.trace, t.mem.read e.address.toNat = e.opcode ∧ e.kind = kindOfOpcode e.opcode ∧
      e.address.toNat < t.capacity) ∧
    (∀ e, t.trace.head? = some e → e.address = a) ∧
    t.trace.IsChain (fun e f => f.address = s.nextAddress e.address) ∧
    (t.control = .halted → ∀ e, t.trace.getLast? = some e → t.ip = s.nextAddress e.address)

/-! ## Invariants -/

/-- The invariant holds right after construction of any capacity from 1 to `2^64 - 1`, and so at reset, whose capacity
is the model's choice (log entry 2), as are the memory's form (log entry 8) and the value of `budget` (log entry 3),
of which the count's bound holds whatever it is. `FLAGS` is the spec's own decision D4, the count D9, the trace D10,
the capacity's bounds D14, the stop record D18, construction as reset D23 (log entry 12). -/
def Obligations.InvariantAtReset : Prop :=
  (∀ capacity : Nat, 1 ≤ capacity → capacity ≤ 2 ^ 64 - 1 → (State.constructed capacity).Inv) ∧ State.reset.Inv

/-- Every step keeps the invariant: canonical memory, the stop record of the control state (never the reserved halt; a
fault only with the record of a JMP cut off at the end), the trace one entry per completed handler, the count within
the budget, `FLAGS` and the general-purpose registers 0. `FLAGS` is the spec's own decision D4, the opcode set D5, the
check order D8, the count D9, the trace D10, the fault record D11, the capacity's bounds D14, the stop reasons D18,
the registers D24 (log entry 12); the memory's form (log entry 8), the step outside `Running` (log entry 1) and the
fault as a next state (log entry 7) are the model's. -/
def Obligations.EveryStepKeepsTheInvariant : Prop :=
  ∀ s t : State, s.Inv → step s = .next t → t.Inv

/-- `40_engine_cycle.md` section 4: every host command keeps the invariant, a whole run among them. The commands are
the spec's own decision D15, the capacity's bounds D14, re-entry D19; the invariant's clauses rest on D4, D5, D8, D9,
D10, D11, D18 and D24 (log entry 12); the memory's form is the model's (log entry 8). -/
def Obligations.EveryHostCommandKeepsTheInvariant : Prop :=
  ∀ (w v : World) (c : HostCommand) (r : HostReply),
    (∀ s, w = some s → s.Inv) → hostStep w c = .next (v, r) → ∀ t, v = some t → t.Inv

/-- `10_state.md` section 5: every step keeps the trace true to memory: each entry's opcode is the byte at its
address. The trace is the spec's own decision D10 (log entry 12); the step outside `Running` is the model's reading
(log entry 1). -/
def Obligations.EveryStepKeepsTheTraceTrue : Prop :=
  ∀ s t : State, s.TraceFromMemory → step s = .next t → t.TraceFromMemory

end Statements
end

