-- ==== Sys2Proof/Laws/Decode.lean ====
section
/-! SUPPORT. All that the dispatch table and the decoder can answer. -/

namespace Sys2Proof

theorem decodeOpcode_nop (next : Option Byte) : decodeOpcode Opcode.nop next = .nop := rfl

theorem decodeOpcode_jmp (next : Option Byte) : decodeOpcode Opcode.jmp next = .jmp next := rfl

theorem decodeOpcode_unknown {op : Byte} (h1 : op ≠ Opcode.nop) (h2 : op ≠ Opcode.jmp) (next : Option Byte) :
    decodeOpcode op next = .unknown op := by simp [decodeOpcode, h1, h2]

/-- The dispatch table's three rows. -/
theorem decodeOpcode_cases (op : Byte) (next : Option Byte) :
    (op = Opcode.nop ∧ decodeOpcode op next = .nop) ∨ (op = Opcode.jmp ∧ decodeOpcode op next = .jmp next) ∨
      (op ≠ Opcode.nop ∧ op ≠ Opcode.jmp ∧ decodeOpcode op next = .unknown op) := by
  by_cases h1 : op = Opcode.nop
  · exact .inl ⟨h1, by rw [h1]; rfl⟩
  · by_cases h2 : op = Opcode.jmp
    · exact .inr (.inl ⟨h2, by rw [h2]; rfl⟩)
    · exact .inr (.inr ⟨h1, h2, decodeOpcode_unknown h1 h2 next⟩)

theorem decode_nop (rest : List Byte) : decode (Opcode.nop :: rest) = .ok (.nop, rest) := rfl

theorem decode_jmp (d : Byte) (rest : List Byte) : decode (Opcode.jmp :: d :: rest) = .ok (.jmp (some d), rest) := rfl

theorem decode_jmp_alone : decode [Opcode.jmp] = .ok (.jmp none, []) := rfl

theorem decode_unknown {op : Byte} (h1 : op ≠ Opcode.nop) (h2 : op ≠ Opcode.jmp) (rest : List Byte) :
    decode (op :: rest) = .ok (.unknown op, rest) := by
  simp only [decode, decodeOpcode_unknown h1 h2]

/-- A well-formed instruction is NOP, a JMP with its byte, or an UNKNOWN of an unrecognised byte. -/
theorem Instr.wf_cases {i : Instr} (h : i.wf = true) :
    i = .nop ∨ (∃ d, i = .jmp (some d)) ∨ ∃ op, i = .unknown op ∧ op ≠ Opcode.nop ∧ op ≠ Opcode.jmp := by
  match i with
  | .nop => exact .inl rfl
  | .jmp (some d) => exact .inr (.inl ⟨d, rfl⟩)
  | .jmp none => simp [Instr.wf, Instr.check] at h
  | .unknown op =>
    refine .inr (.inr ⟨op, rfl, ?_⟩)
    by_cases hop : op = Opcode.nop ∨ op = Opcode.jmp
    · simp [Instr.wf, Instr.check, hop] at h
    · exact not_or.mp hop

end Sys2Proof
end

