-- ==== Sys2Proof/Laws/State.lean ====
section
/-! SUPPORT. What each update of the state leaves in each field. -/

namespace Sys2Proof.Machine

variable (s : State)

@[simp] theorem State.setIp_capacity (v : Word) : (s.setIp v).capacity = s.capacity := rfl
@[simp] theorem State.setIp_mem (v : Word) : (s.setIp v).mem = s.mem := rfl
@[simp] theorem State.setIp_ip (v : Word) : (s.setIp v).ip = v := rfl
@[simp] theorem State.setIp_gpr (v : Word) : (s.setIp v).gpr = s.gpr := rfl
@[simp] theorem State.setIp_flags (v : Word) : (s.setIp v).flags = s.flags := rfl
@[simp] theorem State.setIp_control (v : Word) : (s.setIp v).control = s.control := rfl
@[simp] theorem State.setIp_stop (v : Word) : (s.setIp v).stop = s.stop := rfl
@[simp] theorem State.setIp_trace (v : Word) : (s.setIp v).trace = s.trace := rfl
@[simp] theorem State.setIp_count (v : Word) : (s.setIp v).count = s.count := rfl
@[simp] theorem State.setIp_budget (v : Word) : (s.setIp v).budget = s.budget := rfl

@[simp] theorem State.advanceIp_capacity : s.advanceIp.capacity = s.capacity := rfl
@[simp] theorem State.advanceIp_mem : s.advanceIp.mem = s.mem := rfl
@[simp] theorem State.advanceIp_ip : s.advanceIp.ip = s.ip + 1 := rfl
@[simp] theorem State.advanceIp_gpr : s.advanceIp.gpr = s.gpr := rfl
@[simp] theorem State.advanceIp_flags : s.advanceIp.flags = s.flags := rfl
@[simp] theorem State.advanceIp_control : s.advanceIp.control = s.control := rfl
@[simp] theorem State.advanceIp_stop : s.advanceIp.stop = s.stop := rfl
@[simp] theorem State.advanceIp_trace : s.advanceIp.trace = s.trace := rfl
@[simp] theorem State.advanceIp_count : s.advanceIp.count = s.count := rfl
@[simp] theorem State.advanceIp_budget : s.advanceIp.budget = s.budget := rfl

@[simp] theorem State.traceAppend_capacity (e : TraceEntry) : (s.traceAppend e).capacity = s.capacity := rfl
@[simp] theorem State.traceAppend_mem (e : TraceEntry) : (s.traceAppend e).mem = s.mem := rfl
@[simp] theorem State.traceAppend_ip (e : TraceEntry) : (s.traceAppend e).ip = s.ip := rfl
@[simp] theorem State.traceAppend_gpr (e : TraceEntry) : (s.traceAppend e).gpr = s.gpr := rfl
@[simp] theorem State.traceAppend_flags (e : TraceEntry) : (s.traceAppend e).flags = s.flags := rfl
@[simp] theorem State.traceAppend_control (e : TraceEntry) : (s.traceAppend e).control = s.control := rfl
@[simp] theorem State.traceAppend_stop (e : TraceEntry) : (s.traceAppend e).stop = s.stop := rfl
@[simp] theorem State.traceAppend_trace (e : TraceEntry) : (s.traceAppend e).trace = s.trace ++ [e] := rfl
@[simp] theorem State.traceAppend_count (e : TraceEntry) : (s.traceAppend e).count = s.count := rfl
@[simp] theorem State.traceAppend_budget (e : TraceEntry) : (s.traceAppend e).budget = s.budget := rfl

@[simp] theorem State.countUp_capacity : s.countUp.capacity = s.capacity := rfl
@[simp] theorem State.countUp_mem : s.countUp.mem = s.mem := rfl
@[simp] theorem State.countUp_ip : s.countUp.ip = s.ip := rfl
@[simp] theorem State.countUp_gpr : s.countUp.gpr = s.gpr := rfl
@[simp] theorem State.countUp_flags : s.countUp.flags = s.flags := rfl
@[simp] theorem State.countUp_control : s.countUp.control = s.control := rfl
@[simp] theorem State.countUp_stop : s.countUp.stop = s.stop := rfl
@[simp] theorem State.countUp_trace : s.countUp.trace = s.trace := rfl
@[simp] theorem State.countUp_count : s.countUp.count = s.count + 1 := rfl
@[simp] theorem State.countUp_budget : s.countUp.budget = s.budget := rfl

@[simp] theorem State.halt_capacity (r : HaltReason) : (s.halt r).capacity = s.capacity := rfl
@[simp] theorem State.halt_mem (r : HaltReason) : (s.halt r).mem = s.mem := rfl
@[simp] theorem State.halt_ip (r : HaltReason) : (s.halt r).ip = s.ip := rfl
@[simp] theorem State.halt_gpr (r : HaltReason) : (s.halt r).gpr = s.gpr := rfl
@[simp] theorem State.halt_flags (r : HaltReason) : (s.halt r).flags = s.flags := rfl
@[simp] theorem State.halt_control (r : HaltReason) : (s.halt r).control = .halted := rfl
@[simp] theorem State.halt_stop (r : HaltReason) : (s.halt r).stop = .halted r := rfl
@[simp] theorem State.halt_trace (r : HaltReason) : (s.halt r).trace = s.trace := rfl
@[simp] theorem State.halt_count (r : HaltReason) : (s.halt r).count = s.count := rfl
@[simp] theorem State.halt_budget (r : HaltReason) : (s.halt r).budget = s.budget := rfl

@[simp] theorem State.takeOutOfBounds_capacity (e : OutOfBounds) (a : Word) : (s.takeOutOfBounds e a).capacity = s.capacity := rfl
@[simp] theorem State.takeOutOfBounds_mem (e : OutOfBounds) (a : Word) : (s.takeOutOfBounds e a).mem = s.mem := rfl
@[simp] theorem State.takeOutOfBounds_ip (e : OutOfBounds) (a : Word) : (s.takeOutOfBounds e a).ip = s.ip := rfl
@[simp] theorem State.takeOutOfBounds_gpr (e : OutOfBounds) (a : Word) : (s.takeOutOfBounds e a).gpr = s.gpr := rfl
@[simp] theorem State.takeOutOfBounds_flags (e : OutOfBounds) (a : Word) : (s.takeOutOfBounds e a).flags = s.flags := rfl
@[simp] theorem State.takeOutOfBounds_control (e : OutOfBounds) (a : Word) : (s.takeOutOfBounds e a).control = .faulted := rfl
@[simp] theorem State.takeOutOfBounds_stop (e : OutOfBounds) (a : Word) : (s.takeOutOfBounds e a).stop = .faulted ⟨e.addr, e.len, a, s.ip⟩ := rfl
@[simp] theorem State.takeOutOfBounds_trace (e : OutOfBounds) (a : Word) : (s.takeOutOfBounds e a).trace = s.trace := rfl
@[simp] theorem State.takeOutOfBounds_count (e : OutOfBounds) (a : Word) : (s.takeOutOfBounds e a).count = s.count := rfl
@[simp] theorem State.takeOutOfBounds_budget (e : OutOfBounds) (a : Word) : (s.takeOutOfBounds e a).budget = s.budget := rfl

@[simp] theorem State.enterRun_capacity (a m : Word) : (s.enterRun a m).capacity = s.capacity := rfl
@[simp] theorem State.enterRun_mem (a m : Word) : (s.enterRun a m).mem = s.mem := rfl
@[simp] theorem State.enterRun_ip (a m : Word) : (s.enterRun a m).ip = a := rfl
@[simp] theorem State.enterRun_gpr (a m : Word) : (s.enterRun a m).gpr = s.gpr := rfl
@[simp] theorem State.enterRun_flags (a m : Word) : (s.enterRun a m).flags = s.flags := rfl
@[simp] theorem State.enterRun_control (a m : Word) : (s.enterRun a m).control = .running := rfl
@[simp] theorem State.enterRun_stop (a m : Word) : (s.enterRun a m).stop = .none := rfl
@[simp] theorem State.enterRun_trace (a m : Word) : (s.enterRun a m).trace = [] := rfl
@[simp] theorem State.enterRun_count (a m : Word) : (s.enterRun a m).count = 0 := rfl
@[simp] theorem State.enterRun_budget (a m : Word) : (s.enterRun a m).budget = m := rfl

@[simp] theorem State.writeGpr_capacity (i : Fin 8) (v : Word) : (s.writeGpr i v).capacity = s.capacity := rfl
@[simp] theorem State.writeGpr_mem (i : Fin 8) (v : Word) : (s.writeGpr i v).mem = s.mem := rfl
@[simp] theorem State.writeGpr_ip (i : Fin 8) (v : Word) : (s.writeGpr i v).ip = s.ip := rfl
@[simp] theorem State.writeGpr_gpr (i : Fin 8) (v : Word) : (s.writeGpr i v).gpr = s.gpr.set (GprName.ofIndex i) v := rfl
@[simp] theorem State.writeGpr_flags (i : Fin 8) (v : Word) : (s.writeGpr i v).flags = s.flags := rfl
@[simp] theorem State.writeGpr_control (i : Fin 8) (v : Word) : (s.writeGpr i v).control = s.control := rfl
@[simp] theorem State.writeGpr_stop (i : Fin 8) (v : Word) : (s.writeGpr i v).stop = s.stop := rfl
@[simp] theorem State.writeGpr_trace (i : Fin 8) (v : Word) : (s.writeGpr i v).trace = s.trace := rfl
@[simp] theorem State.writeGpr_count (i : Fin 8) (v : Word) : (s.writeGpr i v).count = s.count := rfl
@[simp] theorem State.writeGpr_budget (i : Fin 8) (v : Word) : (s.writeGpr i v).budget = s.budget := rfl

@[simp] theorem State.constructed_mem (n : Nat) : (State.constructed n).mem = [] := rfl
@[simp] theorem State.constructed_ip (n : Nat) : (State.constructed n).ip = 0 := rfl
@[simp] theorem State.constructed_flags (n : Nat) : (State.constructed n).flags = 0 := rfl
@[simp] theorem State.constructed_control (n : Nat) : (State.constructed n).control = .idle := rfl
@[simp] theorem State.constructed_stop (n : Nat) : (State.constructed n).stop = .none := rfl
@[simp] theorem State.constructed_trace (n : Nat) : (State.constructed n).trace = [] := rfl
@[simp] theorem State.constructed_count (n : Nat) : (State.constructed n).count = 0 := rfl
@[simp] theorem State.constructed_capacity (n : Nat) : (State.constructed n).capacity = n := rfl
@[simp] theorem State.constructed_budget (n : Nat) : (State.constructed n).budget = Config.resetBudget := rfl

/-- No index of a general-purpose register is a second name of another (`10_state.md` R22). -/
theorem GprName.ofIndex_injective : Function.Injective GprName.ofIndex := by decide

theorem GprFile.get_set_same (g : GprFile) (r : GprName) (v : Word) : (g.set r v).get r = v := by
  cases r <;> rfl

theorem GprFile.get_set_other (g : GprFile) {r q : GprName} (h : r ≠ q) (v : Word) :
    (g.set r v).get q = g.get q := by
  cases r <;> cases q <;> first | rfl | exact absurd rfl h

@[simp] theorem GprFile.get_constructed (n : Nat) (r : GprName) : (State.constructed n).gpr.get r = 0 := by
  cases r <;> rfl

end Sys2Proof.Machine
end

