-- ==== Sys2Proof/Laws/Memory.lean ====
section
/-! SUPPORT. Memory: a read after a write, and the canonical form that every operation keeps. -/

namespace Sys2Proof.Machine

@[simp] theorem Memory.read_nil (a : Nat) : Memory.read [] a = 0 := rfl

theorem Memory.read_cons (k : Nat) (v : Byte) (m : Memory) (a : Nat) :
    Memory.read ((k, v) :: m) a = if k = a then v else Memory.read m a := rfl

theorem Memory.wf_nil : Memory.wf [] := by simp [Memory.wf]

/-- An address that no cell lists reads as 0. -/
theorem Memory.read_of_unlisted {m : Memory} {a : Nat} (h : ∀ c ∈ m, c.1 ≠ a) : Memory.read m a = 0 := by
  induction m with
  | nil => rfl
  | cons c m ih =>
    obtain ⟨k, v⟩ := c
    rw [Memory.read_cons, if_neg (h _ List.mem_cons_self), ih fun c hc => h c (List.mem_cons_of_mem _ hc)]

/-- The cells a write leaves: old ones, or the one written. -/
theorem Memory.mem_write {m : Memory} {a : Nat} {v : Byte} {c : Host.Cell} (h : c ∈ Memory.write m a v) :
    c ∈ m ∨ (c = (a, v) ∧ v ≠ 0) := by
  induction m with
  | nil =>
    simp only [Memory.write] at h
    split at h <;> simp_all
  | cons d m ih =>
    obtain ⟨k, w⟩ := d
    simp only [Memory.write] at h
    split_ifs at h <;> simp only [List.mem_cons] at h ⊢ <;> tauto

/-- A write of the byte at `a` leaves every other byte alone. -/
theorem Memory.read_write_other {m : Memory} {a b : Nat} (v : Byte) (h : b ≠ a) :
    Memory.read (Memory.write m a v) b = Memory.read m b := by
  induction m with
  | nil =>
    simp only [Memory.write]
    split_ifs
    · rfl
    · rw [Memory.read_cons, if_neg (Ne.symm h)]
  | cons c m ih =>
    obtain ⟨k, w⟩ := c
    simp only [Memory.write]
    split_ifs with h1 h2 h3 h4
    · rfl
    · rw [Memory.read_cons, if_neg (Ne.symm h)]
    · rw [Memory.read_cons, if_neg (h3 ▸ Ne.symm h)]
    · rw [Memory.read_cons, Memory.read_cons, if_neg (Ne.symm h), if_neg (h3 ▸ Ne.symm h)]
    · rw [Memory.read_cons, Memory.read_cons, ih]

/-- A write is read back (`20_memory.md` R58). -/
theorem Memory.read_write_same {m : Memory} (hm : m.wf) (a : Nat) (v : Byte) :
    Memory.read (Memory.write m a v) a = v := by
  induction m with
  | nil =>
    simp only [Memory.write]
    split_ifs with hv
    · exact hv.symm
    · rw [Memory.read_cons, if_pos rfl]
  | cons c m ih =>
    obtain ⟨k, w⟩ := c
    obtain ⟨hp, hz⟩ := hm
    obtain ⟨hlt, hp⟩ := List.pairwise_cons.mp hp
    have hm : Memory.wf m := ⟨hp, fun c hc => hz c (List.mem_cons_of_mem _ hc)⟩
    simp only [Memory.write]
    split_ifs with h1 h2 h3 h4
    · rw [h2]
      refine Memory.read_of_unlisted fun c hc => ?_
      rcases List.mem_cons.mp hc with rfl | hc
      · exact Nat.ne_of_gt h1
      · exact Nat.ne_of_gt (Nat.lt_trans h1 (hlt c hc))
    · rw [Memory.read_cons, if_pos rfl]
    · rw [h4]
      exact Memory.read_of_unlisted fun c hc => Nat.ne_of_gt (h3 ▸ hlt c hc)
    · rw [Memory.read_cons, if_pos rfl]
    · rw [Memory.read_cons, if_neg (Ne.symm h3), ih hm]

theorem Memory.wf_write {m : Memory} (hm : m.wf) (a : Nat) (v : Byte) : (Memory.write m a v).wf := by
  refine ⟨?_, fun c hc => ?_⟩
  · induction m with
    | nil =>
      simp only [Memory.write]
      split_ifs <;> simp
    | cons c m ih =>
      obtain ⟨k, w⟩ := c
      obtain ⟨hp, hz⟩ := hm
      obtain ⟨hlt, hp'⟩ := List.pairwise_cons.mp hp
      have hm : Memory.wf m := ⟨hp', fun c hc => hz c (List.mem_cons_of_mem _ hc)⟩
      simp only [Memory.write]
      split_ifs with h1 h2 h3 h4
      · exact hp
      · refine List.pairwise_cons.mpr ⟨fun c hc => ?_, hp⟩
        rcases List.mem_cons.mp hc with rfl | hc
        · exact h1
        · exact Nat.lt_trans h1 (hlt c hc)
      · exact hp'
      · exact List.pairwise_cons.mpr ⟨fun c hc => h3 ▸ hlt c hc, hp'⟩
      · refine List.pairwise_cons.mpr ⟨fun c hc => ?_, ih hm⟩
        rcases Memory.mem_write hc with hc | ⟨rfl, -⟩
        · exact hlt c hc
        · exact Nat.lt_of_le_of_ne (Nat.le_of_not_lt h1) (Ne.symm h3)
  · rcases Memory.mem_write hc with hc | ⟨rfl, hv⟩
    · exact hm.2 c hc
    · exact hv

theorem Memory.wf_writeAll {m : Memory} (hm : m.wf) (a : Nat) (bs : List Byte) : (Memory.writeAll m a bs).wf := by
  induction bs generalizing m a with
  | nil => exact hm
  | cons b bs ih => exact ih (Memory.wf_write hm a b) (a + 1)

/-- The cells a bulk write leaves: old ones, or ones inside the range written. -/
theorem Memory.mem_writeAll {m : Memory} {a : Nat} {bs : List Byte} {c : Host.Cell}
    (h : c ∈ Memory.writeAll m a bs) : c ∈ m ∨ (a ≤ c.1 ∧ c.1 < a + bs.length) := by
  induction bs generalizing m a with
  | nil => exact .inl h
  | cons b bs ih =>
    rcases ih h with h | h
    · rcases Memory.mem_write h with h | ⟨rfl, -⟩
      · exact .inl h
      · exact .inr (by simp)
    · exact .inr (by simp only [List.length_cons]; omega)

theorem Memory.read_writeAll_outside {m : Memory} {a b : Nat} (bs : List Byte)
    (h : b < a ∨ a + bs.length ≤ b) : Memory.read (Memory.writeAll m a bs) b = Memory.read m b := by
  induction bs generalizing m a with
  | nil => rfl
  | cons c bs ih =>
    simp only [List.length_cons] at h
    rw [Memory.writeAll, ih (by omega), Memory.read_write_other c (by omega)]

theorem Memory.read_writeAll_inside {m : Memory} (hm : m.wf) (a : Nat) (bs : List Byte) (k : Nat)
    (h : k < bs.length) : Memory.read (Memory.writeAll m a bs) (a + k) = bs[k] := by
  induction bs generalizing m a k with
  | nil => simp at h
  | cons c bs ih =>
    rw [Memory.writeAll]
    cases k with
    | zero =>
      rw [Memory.read_writeAll_outside bs (by omega)]
      exact Memory.read_write_same hm a c
    | succ k =>
      rw [show a + (k + 1) = (a + 1) + k by omega, ih (Memory.wf_write hm a c) (a + 1) k (by simpa using h)]
      rfl

/-! ## The bounds-checked operations: all that each can answer -/

theorem State.inBounds_iff (s : State) (addr : Word) (n : Nat) :
    s.inBounds addr n = true ↔ addr.toNat + n ≤ s.capacity := by simp [State.inBounds]

theorem State.memReadByte_cases (s : State) (addr : Word) :
    (addr.toNat < s.capacity ∧ s.memReadByte addr = .ok (s.mem.read addr.toNat)) ∨
      (s.capacity ≤ addr.toNat ∧ s.memReadByte addr = .error ⟨addr, 1⟩) := by
  by_cases h : addr.toNat < s.capacity
  · exact .inl ⟨h, by simp [State.memReadByte, State.inBounds, Nat.succ_le_of_lt h]⟩
  · refine .inr ⟨Nat.le_of_not_lt h, ?_⟩
    have : ¬ addr.toNat + 1 ≤ s.capacity := by omega
    simp [State.memReadByte, State.inBounds, this]

theorem State.memWrite_cases (s : State) (addr : Word) (v : List Byte) :
    (addr.toNat + v.length ≤ s.capacity ∧
        s.memWrite addr v = .ok { s with mem := s.mem.writeAll addr.toNat v }) ∨
      (s.capacity < addr.toNat + v.length ∧ s.memWrite addr v = .error ⟨addr, v.length⟩) := by
  by_cases h : addr.toNat + v.length ≤ s.capacity
  · exact .inl ⟨h, by simp [State.memWrite, State.inBounds, h]⟩
  · exact .inr ⟨Nat.lt_of_not_le h, by simp [State.memWrite, State.inBounds, h]⟩

theorem State.memWriteByte_cases (s : State) (addr : Word) (v : Byte) :
    (addr.toNat < s.capacity ∧ s.memWriteByte addr v = .ok { s with mem := s.mem.write addr.toNat v }) ∨
      (s.capacity ≤ addr.toNat ∧ s.memWriteByte addr v = .error ⟨addr, 1⟩) := by
  by_cases h : addr.toNat < s.capacity
  · exact .inl ⟨h, by simp [State.memWriteByte, State.inBounds, Nat.succ_le_of_lt h]⟩
  · refine .inr ⟨Nat.le_of_not_lt h, ?_⟩
    have : ¬ addr.toNat + 1 ≤ s.capacity := by omega
    simp [State.memWriteByte, State.inBounds, this]

/-- `read_byte(a)` is `read_bytes(a, 1)`'s single byte (`20_memory.md` R56). -/
theorem State.memRead_one (s : State) (addr : Word) :
    s.memRead addr 1 = (s.memReadByte addr).map fun b => [b] := by
  unfold State.memRead State.memReadByte
  split <;> rfl

end Sys2Proof.Machine
end

