-- ==== Sys2Proof/Laws/Ops.lean ====
section
/-! SUPPORT. All that the shared operations of the handlers can do. -/

namespace Sys2Proof.Machine

@[simp] theorem HandlerResult.finish_completed (s : State) (a : Word) :
    (HandlerResult.completed s).finish a = s.countUp := rfl

@[simp] theorem HandlerResult.finish_raised (e : OutOfBounds) (s : State) (a : Word) :
    (HandlerResult.raised e s).finish a = s.takeOutOfBounds e a := rfl

/-- Consuming an operand byte: it is there and `IP` passes it, or the read fails and nothing moves. -/
theorem State.takeOperand_cases (s : State) (b : Option Byte) :
    (∃ d, b = some d ∧ s.ip.toNat < s.capacity ∧ s.takeOperand b = .ok (d, s.advanceIp)) ∨
      ((b = none ∨ s.capacity ≤ s.ip.toNat) ∧ s.takeOperand b = .error ⟨s.ip, 1⟩) := by
  cases b with
  | none => exact .inr ⟨.inl rfl, rfl⟩
  | some d =>
    by_cases h : s.ip.toNat < s.capacity
    · refine .inl ⟨d, rfl, h, ?_⟩
      simp [State.takeOperand, State.inBounds, Nat.succ_le_of_lt h]
    · refine .inr ⟨.inr (Nat.le_of_not_lt h), ?_⟩
      have : ¬ s.ip.toNat + 1 ≤ s.capacity := by omega
      simp [State.takeOperand, State.inBounds, this]

/-- Everything an instruction can do: it is counted, with its trace entry and a new `IP`, or it takes the fault with `IP`
just past the opcode. -/
theorem exec_cases (i : Instr) (s : State) :
    ∃ kind, (kind = .unknown ↔ ∃ op, i = .unknown op) ∧
      ((∃ ip, exec i s = .next (((s.setIp ip).traceAppend ⟨s.ip, i.opcode, kind⟩).countUp)) ∨
        ((∃ d, i = .jmp d ∧ (d = none ∨ s.capacity ≤ (s.ip + 1).toNat)) ∧
          exec i s = .next (((s.setIp (s.ip + 1)).traceAppend ⟨s.ip, i.opcode, kind⟩).takeOutOfBounds
            ⟨s.ip + 1, 1⟩ s.ip))) := by
  cases i with
  | nop => exact ⟨.recognized, by simp, .inl ⟨s.ip + 1, rfl⟩⟩
  | unknown op => exact ⟨.unknown, by simp, .inl ⟨s.ip + 1, rfl⟩⟩
  | jmp d =>
    refine ⟨.recognized, by simp, ?_⟩
    have h := State.takeOperand_cases (s.advanceIp.traceAppend ⟨s.ip, Opcode.jmp, .recognized⟩) d
    rcases h with ⟨d, rfl, -, h⟩ | ⟨hd, h⟩
    · exact .inl ⟨s.ip + 1 + 1 + sext64 d, by simp only [exec, execJmp, State.runHandler, jmpHandler, h]; rfl⟩
    · exact .inr ⟨⟨d, rfl, hd⟩, by simp only [exec, execJmp, State.runHandler, jmpHandler, h]; rfl⟩

end Sys2Proof.Machine
end

