-- ==== Sys2Proof/Laws/Step.lean ====
section
/-! SUPPORT. All that the top of an iteration and one step can do. -/

namespace Sys2Proof.Machine

theorem State.budgetSpent_iff (s : State) : s.budgetSpent = true ↔ s.budget.toNat ≤ s.count.toNat := by
  simp [State.budgetSpent]

/-- The byte of memory at an address, where the address exists. -/
theorem State.memReadByte_of_lt {s : State} {addr : Word} (h : addr.toNat < s.capacity) :
    s.memReadByte addr = .ok (s.mem.read addr.toNat) := by
  rcases s.memReadByte_cases addr with ⟨-, h'⟩ | ⟨h', -⟩
  · exact h'
  · omega

theorem State.memReadByte_of_le {s : State} {addr : Word} (h : s.capacity ≤ addr.toNat) :
    s.memReadByte addr = .error ⟨addr, 1⟩ := by
  rcases s.memReadByte_cases addr with ⟨h', -⟩ | ⟨-, h'⟩
  · omega
  · exact h'

/-- The operand byte is there exactly where its address exists. -/
theorem State.operandAt_of_lt {s : State} (h : (s.ip + 1).toNat < s.capacity) :
    s.operandAt = some (s.mem.read (s.ip + 1).toNat) := if_pos ((s.inBounds_iff _ _).mpr h)

theorem State.operandAt_of_le {s : State} (h : s.capacity ≤ (s.ip + 1).toNat) : s.operandAt = none :=
  if_neg fun hb => absurd ((s.inBounds_iff _ _).mp hb) (by omega)

theorem State.fetchInsn_of_lt {s : State} (h : s.ip.toNat < s.capacity) :
    s.fetchInsn = some (decodeOpcode (s.mem.read s.ip.toNat) s.operandAt) := by
  unfold State.fetchInsn State.insnBytes
  rw [State.memReadByte_of_lt h]
  cases s.operandAt <;>
    rcases decodeOpcode_cases (s.mem.read s.ip.toNat) none with ⟨h1, -⟩ | ⟨h1, -⟩ | ⟨h1, h2, -⟩ <;>
    simp [decode, decodeOpcode, *] <;> rfl

theorem State.fetchInsn_of_le {s : State} (h : s.capacity ≤ s.ip.toNat) : s.fetchInsn = none := by
  unfold State.fetchInsn State.insnBytes
  rw [State.memReadByte_of_le h]
  rfl

/-- Everything a step can do. -/
theorem step_cases (s : State) :
    (s.control ≠ .running ∧ step s = .next s) ∨
      (s.control = .running ∧ s.budget.toNat ≤ s.count.toNat ∧ step s = .next (s.halt .budget)) ∨
      (s.control = .running ∧ s.count.toNat < s.budget.toNat ∧ s.capacity ≤ s.ip.toNat ∧
        step s = .next (s.halt .endOfMemory)) ∨
      (s.control = .running ∧ s.count.toNat < s.budget.toNat ∧ s.ip.toNat < s.capacity ∧
        step s = exec (decodeOpcode (s.mem.read s.ip.toNat) s.operandAt) s) := by
  unfold step
  cases hc : s.control with
  | idle => exact .inl ⟨by simp, rfl⟩
  | halted => exact .inl ⟨by simp, rfl⟩
  | faulted => exact .inl ⟨by simp, rfl⟩
  | running =>
    refine .inr ?_
    by_cases hb : s.budget.toNat ≤ s.count.toNat
    · exact .inl ⟨rfl, hb, by simp [s.budgetSpent_iff.mpr hb]⟩
    · have hb' : s.budgetSpent = false := by simpa [State.budgetSpent] using hb
      refine .inr ?_
      by_cases hm : s.capacity ≤ s.ip.toNat
      · exact .inl ⟨rfl, by omega, hm, by simp [hb', State.fetchInsn_of_le hm]⟩
      · exact .inr ⟨rfl, by omega, by omega, by simp [hb', State.fetchInsn_of_lt (Nat.lt_of_not_le hm)]⟩

/-- What an iteration leaves when its instruction completes (spec/40_engine_cycle.md R102). -/
def State.afterCompleted (s : State) : State :=
  ((s.setIp (s.nextAddress s.ip)).traceAppend
    ⟨s.ip, s.mem.read s.ip.toNat, kindOfOpcode (s.mem.read s.ip.toNat)⟩).countUp

/-- What an iteration leaves when a JMP is cut off by the end of memory (`60_exceptions.md` R152). -/
def State.afterCutOff (s : State) : State :=
  ((s.setIp (s.ip + 1)).traceAppend ⟨s.ip, Opcode.jmp, .recognized⟩).takeOutOfBounds ⟨s.ip + 1, 1⟩ s.ip

/-- An executing step whose operand, if it has one, is in memory completes its instruction. -/
theorem step_completes {s : State} (h : s.Executes)
    (hop : s.mem.read s.ip.toNat = Opcode.jmp → (s.ip + 1).toNat < s.capacity) :
    step s = .next s.afterCompleted := by
  obtain ⟨hc, hb, hm⟩ := h
  have hs : step s = exec (decodeOpcode (s.mem.read s.ip.toNat) s.operandAt) s := by
    rcases step_cases s with ⟨h, -⟩ | ⟨-, h, -⟩ | ⟨-, -, h, -⟩ | ⟨-, -, -, h⟩
    · exact absurd hc h
    · omega
    · omega
    · exact h
  rw [hs]
  unfold State.afterCompleted State.nextAddress
  rcases decodeOpcode_cases (s.mem.read s.ip.toNat) s.operandAt with ⟨ho, hd⟩ | ⟨ho, hd⟩ | ⟨h1, h2, hd⟩
  · rw [hd, ho]; rfl
  · have hlt := hop ho
    have hin : s.inBounds (s.ip + 1) 1 = true := (s.inBounds_iff _ _).mpr (by omega)
    have e : s.ip + 1 + 1 = s.ip + 2 := by bv_omega
    rw [hd, ho, State.operandAt_of_lt hlt]
    have ht : (s.advanceIp.traceAppend ⟨s.ip, Opcode.jmp, .recognized⟩).takeOperand
        (some (s.mem.read (s.ip + 1).toNat)) =
        .ok (s.mem.read (s.ip + 1).toNat, (s.advanceIp.traceAppend ⟨s.ip, Opcode.jmp, .recognized⟩).advanceIp) :=
      if_pos hin
    simp only [exec, execJmp, State.runHandler, jmpHandler, ht, if_true, ← e]
    rfl
  · rw [hd, if_neg h2]
    have hk : kindOfOpcode (s.mem.read s.ip.toNat) = .unknown := if_neg (not_or.mpr ⟨h1, h2⟩)
    rw [hk]; rfl

/-- An executing step at a JMP without its displacement byte takes the fault. -/
theorem step_cut_off {s : State} (h : s.Executes) (hop : s.mem.read s.ip.toNat = Opcode.jmp)
    (hlt : s.capacity ≤ (s.ip + 1).toNat) : step s = .next s.afterCutOff := by
  obtain ⟨hc, hb, hm⟩ := h
  rcases step_cases s with ⟨h, -⟩ | ⟨-, h, -⟩ | ⟨-, -, h, -⟩ | ⟨-, -, -, h⟩
  · exact absurd hc h
  · omega
  · omega
  · rw [h, hop, decodeOpcode_jmp, State.operandAt_of_le hlt]
    rfl

/-- Everything the state after a step can be. -/
theorem step_inversion {s t : State} (h : step s = .next t) :
    (s.control ≠ .running ∧ t = s) ∨
      (s.control = .running ∧ s.budget.toNat ≤ s.count.toNat ∧ t = s.halt .budget) ∨
      (s.control = .running ∧ s.count.toNat < s.budget.toNat ∧ s.capacity ≤ s.ip.toNat ∧ t = s.halt .endOfMemory) ∨
      (s.Executes ∧ (s.mem.read s.ip.toNat = Opcode.jmp → (s.ip + 1).toNat < s.capacity) ∧ t = s.afterCompleted) ∨
      (s.Executes ∧ s.mem.read s.ip.toNat = Opcode.jmp ∧ s.capacity ≤ (s.ip + 1).toNat ∧ t = s.afterCutOff) := by
  rcases step_cases s with ⟨hc, hs⟩ | ⟨hc, hb, hs⟩ | ⟨hc, hb, hm, hs⟩ | ⟨hc, hb, hm, -⟩
  · exact .inl ⟨hc, by rw [hs] at h; injection h with h; exact h.symm⟩
  · exact .inr (.inl ⟨hc, hb, by rw [hs] at h; injection h with h; exact h.symm⟩)
  · exact .inr (.inr (.inl ⟨hc, hb, hm, by rw [hs] at h; injection h with h; exact h.symm⟩))
  · have he : s.Executes := ⟨hc, hb, hm⟩
    by_cases hop : s.mem.read s.ip.toNat = Opcode.jmp → (s.ip + 1).toNat < s.capacity
    · rw [step_completes he hop] at h
      injection h with h
      exact .inr (.inr (.inr (.inl ⟨he, hop, h.symm⟩)))
    · obtain ⟨hj, hlt⟩ := Classical.not_imp.mp hop
      rw [step_cut_off he hj (Nat.le_of_not_lt hlt)] at h
      injection h with h
      exact .inr (.inr (.inr (.inr ⟨he, hj, Nat.le_of_not_lt hlt, h.symm⟩)))

/-- One turn of the loop at a running state. -/
theorem runLoop_next {s t : State} (n : Nat) (h : s.control = .running) (hs : step s = .next t) :
    runLoop (n + 1) s = runLoop n t := by
  simp only [runLoop, h, hs]

/-- The loop stops where the Engine is no longer running. -/
theorem runLoop_stopped {s : State} (n : Nat) (h : s.control ≠ .running) : runLoop n s = .next s := by
  cases n with
  | zero => rfl
  | succ n =>
    unfold runLoop
    cases hc : s.control <;> simp_all

end Sys2Proof.Machine
end

