-- ==== Sys2Proof/Laws/Host.lean ====
section
/-! SUPPORT. The host's memory commands keep the canonical form; reset has it; and all that a host command can do. -/

namespace Sys2Proof.Machine

theorem State.constructed_wf (n : Nat) : (State.constructed n).mem.wf := Memory.wf_nil

theorem State.reset_wf : State.reset.mem.wf := Memory.wf_nil

theorem State.loadImage_cases (s : State) (bs : List Byte) (a : Word) :
    (a.toNat + bs.length ≤ s.capacity ∧
        s.loadImage bs a = .ok (bs.length, { s with mem := s.mem.writeAll a.toNat bs })) ∨
      (s.capacity < a.toNat + bs.length ∧ s.loadImage bs a = .error ⟨a, bs.length⟩) := by
  unfold State.loadImage
  rcases s.memWrite_cases a bs with ⟨h, e⟩ | ⟨h, e⟩
  · exact .inl ⟨h, by rw [e]⟩
  · exact .inr ⟨h, by rw [e]⟩

theorem State.loadImage_wf {s t : State} {bs : List Byte} {a : Word} {n : Nat} (hm : s.mem.wf)
    (h : s.loadImage bs a = .ok (n, t)) : t.mem.wf := by
  rcases s.loadImage_cases bs a with ⟨-, e⟩ | ⟨-, e⟩
  · rw [e] at h
    injection h with h
    injection h with _ h
    exact h ▸ Memory.wf_writeAll hm _ _
  · rw [e] at h
    exact absurd h (by simp)

theorem State.memWrite_wf {s t : State} {bs : List Byte} {a : Word} (hm : s.mem.wf)
    (h : s.memWrite a bs = .ok t) : t.mem.wf := by
  rcases s.memWrite_cases a bs with ⟨-, e⟩ | ⟨-, e⟩
  · rw [e] at h
    injection h with h
    exact h ▸ Memory.wf_writeAll hm _ _
  · rw [e] at h
    exact absurd h (by simp)

theorem State.memWriteByte_wf {s t : State} {a : Word} {v : Byte} (hm : s.mem.wf)
    (h : s.memWriteByte a v = .ok t) : t.mem.wf := by
  rcases s.memWriteByte_cases a v with ⟨-, e⟩ | ⟨-, e⟩
  · rw [e] at h
    injection h with h
    exact h ▸ Memory.wf_write hm _ _
  · rw [e] at h
    exact absurd h (by simp)

theorem State.placeInsn_wf {s : State} (hm : s.mem.wf) (bs : List Byte) : (s.placeInsn bs).mem.wf := by
  unfold State.placeInsn
  split_ifs <;> exact Memory.wf_writeAll hm _ _

/-- A command on an Engine that accepts it is the command's effect; any other is refused. -/
theorem hostStep_some_of_not_running {s : State} (h : s.control ≠ .running) (c : HostCommand) :
    hostStep (some s) c = s.command c := if_neg h

theorem hostStep_some_of_running {s : State} (h : s.control = .running) (c : HostCommand) :
    hostStep (some s) c = .refused .commandNotAccepted := if_pos h

end Sys2Proof.Machine
end

