-- ==== Sys2Proof/Laws/PerInstr.lean ====
section
/-! SUPPORT. Facts about each instruction as syntax. -/

namespace Sys2Proof.Laws.Encoding

/-- An encoding begins with the instruction's opcode and, for a well-formed instruction, has the length that the opcode
alone decides (spec/30_encoding.md R80, R82). -/
def Statement (i : Instr) : Prop :=
  (encode i).head? = some i.opcode ∧ (i.wf = true → (encode i).length = insnLength i.opcode)

theorem nop : Statement .nop := ⟨rfl, fun _ => rfl⟩

theorem jmp (d : Option Byte) : Statement (.jmp d) := by
  cases d with
  | none => exact ⟨rfl, fun h => by simp [Instr.wf, Instr.check] at h⟩
  | some d => exact ⟨rfl, fun _ => rfl⟩

theorem unknown (op : Byte) : Statement (.unknown op) := by
  refine ⟨rfl, fun h => ?_⟩
  have hop : op ≠ Opcode.jmp := by
    rintro rfl
    simp [Instr.wf, Instr.check] at h
  simp [encode, insnLength, Instr.opcode, hop]

end Sys2Proof.Laws.Encoding
end

