-- ==== Sys2Proof/Tests/Slice0.lean ====
section
/-! SUPPORT. The model's own tests. Expected results come from the rule or the vector of spec/ that each comment names;
the witnesses show that the hypotheses of the statements can be met. -/

namespace Sys2Proof.Tests

open Sys2Proof Sys2Proof.Machine

/-- A small running Engine: `bs` at address 0, `IP` at `ip`, a budget of 10. -/
def running (capacity : Nat) (bs : List Byte) (ip : Word) : State :=
  { (State.constructed capacity).enterRun ip 10 with mem := Memory.writeAll [] 0 bs }

/-- The same Engine before any run. -/
def loaded (capacity : Nat) (bs : List Byte) : State :=
  { State.constructed capacity with mem := Memory.writeAll [] 0 bs }

/-- One test's view of an outcome. -/
def after {α : Type} (o : Host.Outcome State Fault Refusal) (f : State → α) : Option α :=
  match o with
  | .next s => some (f s)
  | .fault _ => none
  | .refused _ => none

/-! ## WellFormed refuses each ill-formed term by its name -/

theorem test_wf_refuses_jmp_without_displacement : Instr.check (.jmp none) = .error .missingDisplacement := rfl

theorem test_wf_refuses_recognised_bytes_as_unknown :
    Instr.check (.unknown 0x90) = .error (.recognisedOpcode 0x90) ∧
      Instr.check (.unknown 0xEB) = .error (.recognisedOpcode 0xEB) := ⟨rfl, rfl⟩

theorem test_wf_accepts_whole_instructions :
    Instr.wf .nop ∧ Instr.wf (.jmp (some 0x00)) ∧ Instr.wf (.unknown 0x00) ∧ Instr.wf (.unknown 0xFF) := by decide

/-! ## Words written out from the encodings (30_encoding.md R81, R83) -/

theorem test_decode_nop : decode [0b10010000] = .ok (.nop, []) := rfl

/-- The byte after a NOP is not its operand (R82). -/
theorem test_decode_nop_leaves_the_next_byte : decode [0b10010000, 0b11101011] = .ok (.nop, [0xEB]) := rfl

theorem test_decode_jmp_backward : decode [0b11101011, 0b11111110] = .ok (.jmp (some 0xFE), []) := rfl

/-- R86: not an encoding error. -/
theorem test_decode_jmp_cut_off : decode [0b11101011] = .ok (.jmp none, []) := rfl

/-- V-U5: the neighbours of the recognised bytes. -/
theorem test_decode_unknown_neighbours :
    [0x91, 0xEA, 0xEC, 0x8F].map (fun b : Byte => decode [b]) =
      [.ok (.unknown 0x91, []), .ok (.unknown 0xEA, []), .ok (.unknown 0xEC, []), .ok (.unknown 0x8F, [])] := by decide

theorem test_decode_refuses_no_bytes : decode [] = .error .noOpcodeByte := rfl

/-- The second byte is bits 15 to 8 of a table word. -/
theorem test_table_words :
    decodeTableWord 8 0x90 = some .nop ∧ decodeTableWord 16 0xFEEB = some (.jmp (some 0xFE)) ∧
      decodeTableWord 8 0xEB = some (.jmp (some 0x00)) ∧ decodeTableWord 8 0x00 = some (.unknown 0x00) := by decide

theorem test_encode_every_form :
    encode .nop = [0x90] ∧ encode (.jmp (some 0x7F)) = [0xEB, 0x7F] ∧ encode (.unknown 0xC3) = [0xC3] := by decide

/-- P2 of 95_test_vectors.md: the bytes of its listing. -/
theorem test_assemble_p2 :
    assemble [⟨none, .org 0⟩, ⟨some "top", .nop⟩, ⟨none, .jmp (.label "mid")⟩, ⟨none, .byte [0xFF, 0xFF]⟩,
        ⟨some "mid", .nop⟩, ⟨none, .jmp (.label "top")⟩] =
      some [(0, [0x90]), (1, [0xEB, 0x02]), (3, [0xFF, 0xFF]), (5, [0x90]), (6, [0xEB, 0xF8])] := by decide

/-- R88: the farthest targets, and one past each. -/
theorem test_jump_displacement_range :
    jumpDisplacement 200 329 = some 0x7F ∧ jumpDisplacement 200 330 = none ∧
      jumpDisplacement 200 74 = some 0x80 ∧ jumpDisplacement 200 73 = none := by decide

/-! ## One step of each instruction -/

/-- V-N1. -/
theorem test_step_nop :
    after (step (running 4 [0x90] 0)) (fun s => (s.ip, s.count, s.trace, s.control)) =
      some (1, 1, [⟨0, 0x90, .recognized⟩], .running) := by decide

/-- V-N2: at the last byte `IP` becomes `CAPACITY`. -/
theorem test_step_nop_at_the_last_byte :
    after (step (running 4 [0, 0, 0, 0x90] 3)) (fun s => (s.ip, s.count, s.control)) = some (4, 1, .running) := by decide

/-- V-J4: `IP` wraps below 0 and nothing faults. -/
theorem test_step_jmp_wraps :
    after (step (running 4 [0xEB, 0x80] 0)) (fun s => (s.ip, s.count, s.control)) =
      some (0xFFFFFFFFFFFFFF82, 1, .running) := by decide

/-- V-J7, P4: the displacement would be at `CAPACITY`. -/
theorem test_step_jmp_cut_off :
    after (step (running 4 [0x90, 0x90, 0x90, 0xEB] 3)) (fun s => (s.ip, s.count, s.trace, s.control, s.stop)) =
      some (4, 0, [⟨3, 0xEB, .recognized⟩], .faulted, .faulted ⟨4, 1, 3, 4⟩) := by decide

/-- V-U1. -/
theorem test_step_unknown :
    after (step (running 4 [0xFF] 0)) (fun s => (s.ip, s.count, s.trace, s.control)) =
      some (1, 1, [⟨0, 0xFF, .unknown⟩], .running) := by decide

/-- V-U3: 0xF4 halts nothing. -/
theorem test_step_unknown_is_no_halt :
    after (step (running 4 [0xF4] 0)) (fun s => (s.control, s.stop)) = some (.running, .none) := by decide

/-! ## The checks, the host's commands, and the placing of an instruction -/

/-- V-E3: the budget check comes first. -/
theorem test_budget_before_bounds :
    after (step ((State.constructed 8192).enterRun 8192 0)) (fun s => s.stop) = some (.halted .budget) := by decide

/-- V-M9: the sum of the bound does not wrap. -/
theorem test_read_does_not_wrap :
    (State.constructed 8192).memReadByte 0xFFFFFFFFFFFFFFFF = .error ⟨0xFFFFFFFFFFFFFFFF, 1⟩ := by decide

/-- V-M11 and V-M10. -/
theorem test_load_to_the_last_byte :
    (match (State.constructed 8192).loadImage [0x01, 0x02] 8190 with
      | .ok (n, s) => some (n, s.mem)
      | .error _ => none) = some (2, [(8190, 0x01), (8191, 0x02)]) ∧
    (State.constructed 8192).loadImage [0x01, 0x02, 0x03] 8190 = .error ⟨8190, 3⟩ := ⟨by decide, rfl⟩

/-- A written 0 is not listed (the canonical form). -/
theorem test_writing_zero_unlists : Memory.write [(5, 0xAB)] 5 0 = [] := by decide

/-- V-M1. -/
theorem test_construct_zero : construct 0 = .error .invalidConfiguration := rfl

/-- V-E2: budget 0 runs no handler. -/
theorem test_run_with_budget_zero :
    after ((State.constructed 8).run 0 0) (fun s => (s.stop, s.count, s.trace)) = some (.halted .budget, 0, []) := by decide

/-- The placed word is the first instruction after reset. -/
theorem test_with_fetch_word :
    after (step (State.reset.withFetchWord 16 0x7FEB)) (fun s => (s.ip, s.trace)) =
      some (129, [⟨0, 0xEB, .recognized⟩]) := by decide

/-! ## Witnesses: the hypotheses of each statement, met together -/

theorem witness_DecodeOfEncode :
    Instr.wf .nop = true ∧ Instr.wf (.jmp (some 0x80)) = true ∧ Instr.wf (.unknown 0xEC) = true := by decide

theorem witness_EncodeOfDecode :
    decode [0xEB] = .ok (.jmp none, []) ∧ decode [0xEB, 0x00, 0x01] = .ok (.jmp (some 0x00), [0x01]) := ⟨rfl, rfl⟩

theorem witness_InstructionStreamRoundTrip :
    ∀ i ∈ [Instr.nop, .jmp (some 0xFF), .unknown 0xFF], i.wf = true := by decide

theorem witness_AssembledJumpReachesItsTarget :
    jumpDisplacement (running 8 [0xEB, 0x7F] 6).ip 135 = some 0x7F ∧
      ((running 8 [0xEB, 0x7F] 6).ip + 1).toNat < (running 8 [0xEB, 0x7F] 6).capacity := by decide

theorem witness_ReadsAnswerExactlyInBounds :
    (2 : Word).toNat + 2 ≤ (loaded 4 []).capacity ∧ (loaded 4 []).capacity < (2 : Word).toNat + 3 := by decide

theorem witness_LoadIsAllOrNothing :
    (loaded 4 [0x90]).mem.wf ∧ (2 : Word).toNat + [(1 : Byte), 2].length ≤ (loaded 4 [0x90]).capacity ∧
      (loaded 4 [0x90]).capacity < (3 : Word).toNat + [(1 : Byte), 2].length := by decide

theorem witness_WriteByteAndNoInstructionWrites :
    (loaded 4 [0x90]).mem.wf ∧ (3 : Word).toNat < (loaded 4 [0x90]).capacity ∧
      (loaded 4 [0x90]).capacity ≤ (4 : Word).toNat ∧
      (after (exec .nop (loaded 4 [0x90])) fun _ => ()) = some () ∧
      (after (step (running 4 [0x90] 0)) fun _ => ()) = some () := by decide

theorem witness_ReadsReturnTheLastWrite : (loaded 4 [0x90]).mem.wf ∧ (3 : Word).toNat < (loaded 4 [0x90]).capacity := by
  decide

theorem witness_EqualReadsMeanEqualMemory :
    Memory.wf [(1, 0x90), (3, 0xEB)] ∧
      ∀ a, Memory.read [(1, 0x90), (3, 0xEB)] a = Memory.read (Memory.write [(1, 0x90)] 3 0xEB) a :=
  ⟨by decide, fun _ => rfl⟩

/-- For `StepRunsTheDecodedInstruction` and every other statement about an executing state: before the last byte of memory,
and at it. -/
theorem witness_StepRunsTheDecodedInstruction : (running 4 [0x90] 0).Executes ∧ (running 4 [0, 0, 0, 0xEB] 3).Executes := by decide

theorem witness_BudgetExhaustionHalts :
    ((State.constructed 4).enterRun 4 0).control = .running ∧
      ((State.constructed 4).enterRun 4 0).budget.toNat ≤ ((State.constructed 4).enterRun 4 0).count.toNat := by decide

theorem witness_EndOfMemoryHalts :
    (running 4 [] 4).control = .running ∧ (running 4 [] 4).count.toNat < (running 4 [] 4).budget.toNat ∧
      (running 4 [] 4).capacity ≤ (running 4 [] 4).ip.toNat := by decide

theorem witness_NothingMovesOutsideRunning : State.reset.control ≠ .running := by decide

theorem witness_StepIsTheSpecsIteration : (running 4 [0xEB] 3).control = .running := by decide

theorem witness_NopRecordsAndAdvances :
    ((running 4 [0, 0, 0, 0x90] 3).Executes ∧
      (running 4 [0, 0, 0, 0x90] 3).mem.read (running 4 [0, 0, 0, 0x90] 3).ip.toNat = 0x90 ∧
      (running 4 [0, 0, 0, 0x90] 3).ip.toNat + 1 = (running 4 [0, 0, 0, 0x90] 3).capacity ∧
      (running 4 [0, 0, 0, 0x90] 3).capacity ≤ 2 ^ 64 - 1) ∧
    (loaded 1 [0x90]).control ≠ .running ∧ 0 < (loaded 1 [0x90]).capacity ∧ (loaded 1 [0x90]).mem.read 0 = 0x90 := by
  decide

theorem witness_UnknownBytesExecuteAndContinue :
    (running 4 [0, 0, 0, 0x91] 3).Executes ∧
      (running 4 [0, 0, 0, 0x91] 3).mem.read (running 4 [0, 0, 0, 0x91] 3).ip.toNat ≠ 0x90 ∧
      (running 4 [0, 0, 0, 0x91] 3).mem.read (running 4 [0, 0, 0, 0x91] 3).ip.toNat ≠ 0xEB := by decide

theorem witness_UnknownOpcodeIsIdempotent :
    ((0xEC : Byte) ≠ 0x90 ∧ (0xEC : Byte) ≠ 0xEB) ∧
      (loaded 4 [0, 0, 0, 0xC3]).control ≠ .running ∧ (3 : Word).toNat < (loaded 4 [0, 0, 0, 0xC3]).capacity ∧
      (loaded 4 [0, 0, 0, 0xC3]).mem.read (3 : Word).toNat ≠ 0x90 ∧
      (loaded 4 [0, 0, 0, 0xC3]).mem.read (3 : Word).toNat ≠ 0xEB := by decide

theorem witness_JmpTransfersControl :
    ((running 4 [0, 0, 0xEB, 0x80] 2).ip + 1).toNat < (running 4 [0, 0, 0xEB, 0x80] 2).capacity := by decide

theorem witness_JmpWithoutDisplacementFaults :
    (running 4 [0, 0, 0, 0xEB] 3).capacity ≤ ((running 4 [0, 0, 0, 0xEB] 3).ip + 1).toNat := by decide

theorem witness_OnlyACutOffJumpFaults :
    (running 4 [0, 0, 0, 0xEB] 3).Executes ∧ (running 4 [0, 0, 0, 0xEB] 3).capacity ≤ 2 ^ 64 - 1 ∧
      after (step (running 4 [0, 0, 0, 0xEB] 3)) (fun t => t.control) = some .faulted := by decide

theorem witness_JumpOutOfMemoryHaltsNormally :
    (running 4 [0xEB, 0x02] 0).Executes ∧
      (running 4 [0xEB, 0x02] 0).mem.read (running 4 [0xEB, 0x02] 0).ip.toNat = 0xEB ∧
      ((running 4 [0xEB, 0x02] 0).ip + 1).toNat < (running 4 [0xEB, 0x02] 0).capacity ∧
      (running 4 [0xEB, 0x02] 0).mem.read ((running 4 [0xEB, 0x02] 0).ip + 1).toNat = 0x02 ∧
      (running 4 [0xEB, 0x02] 0).capacity ≤ ((running 4 [0xEB, 0x02] 0).ip + 2 + sext64 0x02).toNat := by decide

/-- The three clauses of `InstructionPointerAfterEachInstruction`, each at a state of its own. -/
theorem witness_InstructionPointerAfterEachInstruction :
    (running 4 [0, 0, 0, 0x90] 3).mem.read (3 : Word).toNat = 0x90 ∧
      ((running 4 [0, 0, 0, 0x8F] 3).mem.read (3 : Word).toNat ≠ 0x90 ∧
        (running 4 [0, 0, 0, 0x8F] 3).mem.read (3 : Word).toNat ≠ 0xEB) ∧
      ((running 4 [0, 0, 0xEB, 0xFE] 2).mem.read (2 : Word).toNat = 0xEB ∧
        ((2 : Word) + 1).toNat < (running 4 [0, 0, 0xEB, 0xFE] 2).capacity) := by decide

theorem witness_OneByteInstructionFrame :
    (after (exec .nop (running 4 [0x90] 0)) fun _ => ()) = some () ∧
      (after (exec (.unknown 0xFF) (running 4 [0xFF] 0)) fun _ => ()) = some () := by decide

/-- Both clauses of `JmpFrame`: a JMP that completes, and one that faults. -/
theorem witness_JmpFrame :
    after (exec (.jmp (some 0x00)) (running 4 [0, 0, 0xEB] 2)) (fun t => t.control) = some .running ∧
      after (exec (.jmp none) (running 4 [0, 0, 0, 0xEB] 3)) (fun t => t.control) = some .faulted := by decide

theorem witness_ConstructionLeavesEverythingZero : (8191 : Word).toNat < 8192 := by decide

theorem witness_InvalidConfigurationExactlyAtConstruction :
    hostStep none (.construct 0) = .next (none, .invalidConfiguration) := rfl

theorem witness_OversizedImageIsNotLoaded : (List.replicate 21 (0x90 : Byte)).length = 21 := by decide

theorem witness_MemoryAccessHasNoSideEffect :
    hostStep (some (loaded 4 [0x90])) (.readByte 0) = .next (some (loaded 4 [0x90]), .byte 0x90) ∧
      hostStep (some (loaded 4 [])) (.writeByte 0 0x90) = .next (some (loaded 4 [0x90]), .written) ∧
      hostStep (some (loaded 4 [])) (.loadImage [0x90] 0) = .next (some (loaded 4 [0x90]), .loaded 1) := ⟨rfl, rfl, rfl⟩

/-- An Engine that accepts commands, and an access that fails. -/
theorem witness_FailedHostAccessChangesNothing :
    (loaded 4 []).control ≠ .running ∧
      hostStep (some (loaded 4 [])) (.readByte 4) = .next (some (loaded 4 []), .outOfBounds ⟨4, 1⟩) := ⟨by decide, rfl⟩

theorem witness_ObservationIsTheWholeOutput :
    (loaded 4 []).control ≠ .running ∧ (3 : Word).toNat < (loaded 4 []).capacity := by decide

/-- For `RunsKeepRegistersAndMemory`, `RegistersDoNotInfluenceRuns` and `TheTraceIsTheExecutedPath`: a run that returns,
halted, with a first, a next and a last entry. -/
theorem witness_TheTraceIsTheExecutedPath :
    after ((loaded 4 [0x90]).run 0 2) (fun t => (t.control, t.stop, t.trace.map (·.address), t.ip)) =
      some (.halted, .halted .budget, [0, 1], 2) := by decide

/-- `run(0, 1)` stopped by its budget at 1, and `run(1, 1)` from there. -/
theorem witness_ResumedRunsCompose :
    (1 : Word).toNat + (1 : Word).toNat < 2 ^ 64 ∧
      after ((loaded 4 [0x90]).run 0 1) (fun t => (t.ip, t.stop, (after (t.run t.ip 1) fun u => u.ip))) =
        some (1, .halted .budget, some 2) := by decide

theorem witness_RunOfOneIsASingleStep : (loaded 4 [0, 0, 0, 0xEB]).ip.toNat < (loaded 4 [0, 0, 0, 0xEB]).capacity := by
  decide

theorem running_meets_the_invariant : (running 4 [0, 0, 0, 0xEB] 3).Inv where
  memory := ⟨by decide, by decide, by decide, by decide⟩
  stop := rfl
  trace := ⟨by decide, by decide, by decide⟩
  count := by decide
  registers := ⟨rfl, fun r => by cases r <;> rfl⟩

theorem loaded_meets_the_invariant : (loaded 4 [0x90]).Inv where
  memory := ⟨by decide, by decide, by decide, by decide⟩
  stop := rfl
  trace := ⟨by decide, by decide, by decide⟩
  count := by decide
  registers := ⟨rfl, fun r => by cases r <;> rfl⟩

/-- A state of the invariant that is not reset, whose step answers a next state, the faulted one. -/
theorem witness_EveryStepKeepsTheInvariant :
    (running 4 [0, 0, 0, 0xEB] 3).Inv ∧
      after (step (running 4 [0, 0, 0, 0xEB] 3)) (fun t => (t.ip, t.control)) = some (4, .faulted) :=
  ⟨running_meets_the_invariant, by decide⟩

theorem witness_EveryHostCommandKeepsTheInvariant :
    (∀ s, (some (loaded 4 [0x90]) : World) = some s → s.Inv) ∧
      hostStep (some (loaded 4 [0x90])) (.writeByte 0 0) = .next (some (loaded 4 []), .written) :=
  ⟨fun _ h => Option.some.inj h ▸ loaded_meets_the_invariant, rfl⟩

theorem witness_EveryStepKeepsTheTraceTrue :
    (State.TraceFromMemory { running 4 [0x90, 0x90] 1 with trace := [⟨0, 0x90, .recognized⟩], count := 1 }) ∧
      (after (step { running 4 [0x90, 0x90] 1 with trace := [⟨0, 0x90, .recognized⟩], count := 1 }) fun t => t.ip) =
        some 2 := by decide

theorem witness_InvariantAtReset : 1 ≤ 2 ^ 64 - 1 ∧ Config.resetCapacity ≤ 2 ^ 64 - 1 := by decide

end Sys2Proof.Tests
end

section
/-! Where each instruction leaves `IP` (spec/10_state.md R26). -/

namespace Sys2Proof.Machine

@[simp] theorem State.afterCompleted_ip (s : State) : s.afterCompleted.ip = s.nextAddress s.ip := rfl

@[simp] theorem State.afterCutOff_ip (s : State) : s.afterCutOff.ip = s.ip + 1 := rfl

theorem State.nextAddress_of_jmp {s : State} {a : Word} (h : s.mem.read a.toNat = Opcode.jmp) :
    s.nextAddress a = a + 2 + sext64 (s.mem.read (a + 1).toNat) := if_pos h

theorem State.nextAddress_of_ne_jmp {s : State} {a : Word} (h : s.mem.read a.toNat ≠ Opcode.jmp) :
    s.nextAddress a = a + 1 := if_neg h

/-- Settles O27: the step completes its instruction, or it is a JMP cut off by the end of memory, whose `IP` stands
just past the opcode and which the third row excludes. -/
theorem instructionPointerAfterEachInstruction : Obligations.InstructionPointerAfterEachInstruction := by
  intro s hs
  by_cases hop : s.mem.read s.ip.toNat = Opcode.jmp → (s.ip + 1).toNat < s.capacity
  case pos =>
    refine ⟨s.afterCompleted, step_completes hs hop, fun hnop => ?_, fun ⟨_, hne⟩ => ?_, fun ⟨hjmp, _⟩ => ?_⟩
    · have hne : s.mem.read s.ip.toNat ≠ Opcode.jmp := by rw [hnop]; decide
      rw [State.afterCompleted_ip, State.nextAddress_of_ne_jmp hne]
    · rw [State.afterCompleted_ip, State.nextAddress_of_ne_jmp hne]
    · rw [State.afterCompleted_ip, State.nextAddress_of_jmp hjmp]
  case neg =>
    obtain ⟨hjmp, hlt⟩ := Classical.not_imp.mp hop
    exact ⟨s.afterCutOff, step_cut_off hs hjmp (Nat.le_of_not_lt hlt), fun _ => s.afterCutOff_ip,
      fun _ => s.afterCutOff_ip, fun ⟨_, hin⟩ => absurd hin hlt⟩

end Sys2Proof.Machine
end

section
/-! What each bounds-checked write does on either side of its bound, what memory reads after it, and that no instruction
writes memory (spec/20_memory.md R54, R57). -/

namespace Sys2Proof.Machine

theorem State.memWriteByte_of_lt {s : State} {addr : Word} (v : Byte) (h : addr.toNat < s.capacity) :
    s.memWriteByte addr v = .ok { s with mem := s.mem.write addr.toNat v } := by
  rcases s.memWriteByte_cases addr v with ⟨-, hok⟩ | ⟨hle, -⟩
  · exact hok
  · omega

theorem State.memWriteByte_of_le {s : State} {addr : Word} (v : Byte) (h : s.capacity ≤ addr.toNat) :
    s.memWriteByte addr v = .error ⟨addr, 1⟩ := by
  rcases s.memWriteByte_cases addr v with ⟨hlt, -⟩ | ⟨-, herr⟩
  · omega
  · exact herr

theorem State.loadImage_of_le {s : State} {bs : List Byte} {addr : Word} (h : addr.toNat + bs.length ≤ s.capacity) :
    s.loadImage bs addr = .ok (bs.length, { s with mem := s.mem.writeAll addr.toNat bs }) := by
  rcases s.loadImage_cases bs addr with ⟨-, hok⟩ | ⟨hlt, -⟩
  · exact hok
  · omega

theorem State.loadImage_of_lt {s : State} {bs : List Byte} {addr : Word} (h : s.capacity < addr.toNat + bs.length) :
    s.loadImage bs addr = .error ⟨addr, bs.length⟩ := by
  rcases s.loadImage_cases bs addr with ⟨hle, -⟩ | ⟨-, herr⟩
  · omega
  · exact herr

theorem State.loadImage_eq_map_memWrite (s : State) (bs : List Byte) (addr : Word) :
    s.loadImage bs addr = (s.memWrite addr bs).map fun t => (bs.length, t) := by
  unfold State.loadImage
  cases s.memWrite addr bs <;> rfl

theorem Memory.read_write {m : Memory} (hm : m.wf) (a : Nat) (v : Byte) (b : Nat) :
    (m.write a v).read b = if b = a then v else m.read b := by
  split_ifs with h
  · rw [h, Memory.read_write_same hm]
  · exact Memory.read_write_other v h

theorem Memory.read_writeAll {m : Memory} (hm : m.wf) (a : Nat) (bs : List Byte) (b : Nat) :
    (m.writeAll a bs).read b = if a ≤ b then bs[b - a]?.getD (m.read b) else m.read b := by
  split_ifs with hab
  · by_cases hlen : b - a < bs.length
    · have hin := Memory.read_writeAll_inside hm a bs (b - a) hlen
      rw [Nat.add_sub_cancel' hab] at hin
      rw [hin, List.getElem?_eq_getElem hlen, Option.getD_some]
    · rw [Memory.read_writeAll_outside bs (by omega), List.getElem?_eq_none (by omega), Option.getD_none]
  · exact Memory.read_writeAll_outside bs (by omega)

theorem exec_mem {i : Instr} {s t : State} (h : exec i s = .next t) : t.mem = s.mem := by
  obtain ⟨kind, -, ⟨ip, hnext⟩ | ⟨-, hfault⟩⟩ := exec_cases i s
  · cases hnext.symm.trans h
    simp
  · cases hfault.symm.trans h
    simp

theorem step_mem {s t : State} (h : step s = .next t) : t.mem = s.mem := by
  rcases step_cases s with ⟨-, hs⟩ | ⟨-, -, hs⟩ | ⟨-, -, -, hs⟩ | ⟨-, -, -, hs⟩
  · cases hs.symm.trans h
    rfl
  · cases hs.symm.trans h
    exact s.halt_mem _
  · cases hs.symm.trans h
    exact s.halt_mem _
  · exact exec_mem (hs.symm.trans h)

end Sys2Proof.Machine
end

section
/-! What a history of writes and loads leaves in memory (spec/20_memory.md R58): every change, failed or not, keeps the
capacity and the canonical form, and puts at each address exactly the byte that `MemOp.byteAt` names. -/

namespace Sys2Proof.Machine

theorem State.afterMemOp_write (s : State) (addr : Word) (v : Byte) :
    s.afterMemOp (.write addr v) =
      if addr.toNat < s.capacity then { s with mem := s.mem.write addr.toNat v } else s := by
  unfold State.afterMemOp
  split_ifs with h
  · simp only [State.memWriteByte_of_lt v h]
  · simp only [State.memWriteByte_of_le v (Nat.le_of_not_lt h)]

theorem State.afterMemOp_load (s : State) (addr : Word) (bs : List Byte) :
    s.afterMemOp (.load addr bs) =
      if addr.toNat + bs.length ≤ s.capacity then { s with mem := s.mem.writeAll addr.toNat bs } else s := by
  unfold State.afterMemOp
  split_ifs with h
  · simp only [State.loadImage_of_le h]
  · simp only [State.loadImage_of_lt (Nat.lt_of_not_le h)]

@[simp] theorem State.afterMemOp_capacity (s : State) (op : MemOp) : (s.afterMemOp op).capacity = s.capacity := by
  cases op with
  | write addr v => rw [State.afterMemOp_write]; split_ifs <;> rfl
  | load addr bs => rw [State.afterMemOp_load]; split_ifs <;> rfl

theorem State.afterMemOp_wf {s : State} (hm : s.mem.wf) (op : MemOp) : (s.afterMemOp op).mem.wf := by
  cases op with
  | write addr v =>
    rw [State.afterMemOp_write]
    split_ifs
    · exact Memory.wf_write hm _ _
    · exact hm
  | load addr bs =>
    rw [State.afterMemOp_load]
    split_ifs
    · exact Memory.wf_writeAll hm _ _
    · exact hm

/-- The one-change form of R58: a change that fails, or that does not reach `a`, leaves the byte there. -/
theorem State.read_afterMemOp {s : State} (hm : s.mem.wf) (op : MemOp) (a : Nat) :
    (s.afterMemOp op).mem.read a = (op.byteAt s.capacity a).getD (s.mem.read a) := by
  cases op with
  | write addr v =>
    rw [State.afterMemOp_write, MemOp.byteAt]
    by_cases hin : addr.toNat < s.capacity
    · rw [if_pos hin, Memory.read_write hm]
      by_cases ha : a = addr.toNat
      · simp [hin, ha]
      · simp [ha, Ne.symm ha]
    · simp [hin]
  | load addr bs =>
    rw [State.afterMemOp_load, MemOp.byteAt]
    by_cases hin : addr.toNat + bs.length ≤ s.capacity
    · rw [if_pos hin, Memory.read_writeAll hm]
      by_cases ha : addr.toNat ≤ a
      · simp [hin, ha]
      · simp [ha]
    · simp [hin]

@[simp] theorem afterHistory_capacity (capacity : Nat) (history : List MemOp) :
    (afterHistory capacity history).capacity = capacity := by
  induction history with
  | nil => rfl
  | cons op earlier ih => rw [afterHistory, State.afterMemOp_capacity, ih]

theorem afterHistory_wf (capacity : Nat) (history : List MemOp) : (afterHistory capacity history).mem.wf := by
  induction history with
  | nil => exact State.constructed_wf capacity
  | cons op earlier ih => exact State.afterMemOp_wf ih op

theorem read_afterHistory (capacity : Nat) (history : List MemOp) (a : Nat) :
    (afterHistory capacity history).mem.read a = lastWritten capacity history a := by
  induction history with
  | nil => rfl
  | cons op earlier ih =>
    rw [afterHistory, State.read_afterMemOp (afterHistory_wf capacity earlier), afterHistory_capacity, ih, lastWritten]

end Sys2Proof.Machine
end

section
/-! The statements about memory. -/

namespace Sys2Proof.Machine

/-- Settles O11: the round trip is a read after a write, and the history is taken change by change, newest first. -/
theorem readsReturnTheLastWrite : Obligations.ReadsReturnTheLastWrite := by
  refine ⟨fun s a v hm ha => ⟨_, State.memWriteByte_of_lt v ha, ?_⟩, fun capacity history a ha => ?_⟩
  · refine (State.memReadByte_of_lt ?_).trans (congrArg Except.ok (Memory.read_write_same hm a.toNat v))
    exact ha
  · rw [State.memReadByte_of_lt ((afterHistory_capacity capacity history).symm ▸ ha), read_afterHistory]

/-- Settles O9: in bounds the buffer is written byte by byte, out of bounds there is no new state. -/
theorem loadIsAllOrNothing : Obligations.LoadIsAllOrNothing := by
  intro s buffer addr hm
  refine ⟨fun hin => ⟨_, State.loadImage_of_le hin, rfl, ?_, ?_⟩, State.loadImage_of_lt⟩
  · exact Memory.read_writeAll_inside hm addr.toNat buffer
  · exact fun a ha => Memory.read_writeAll_outside buffer ha

/-- Settles O10: the write on either side of its bound, `load` as `MemWrite` with the length added, and the memory of
each next state of `exec` and of `step`. -/
theorem writeByteAndNoInstructionWrites : Obligations.WriteByteAndNoInstructionWrites := by
  refine ⟨fun s addr v hm => ⟨fun hin => ⟨_, State.memWriteByte_of_lt v hin, rfl, ?_⟩, State.memWriteByte_of_le v⟩,
    fun s addr v => s.loadImage_eq_map_memWrite v addr, fun _ _ _ => exec_mem, fun _ _ => step_mem⟩
  exact Memory.read_write hm addr.toNat v

end Sys2Proof.Machine
end

section
/-! No encoding is illegal: the decoder answers every non-empty sequence of bytes, and an unrecognised byte is executed
like any other, its trace entry the only record (spec/30_encoding.md R85, spec/60_exceptions.md R154). -/

namespace Sys2Proof

/-- A JMP takes the byte after its opcode where there is one. -/
theorem decode_jmp_cons (rest : List Byte) : decode (Opcode.jmp :: rest) = .ok (.jmp rest.head?, rest.tail) := rfl

theorem decode_cons_ok (op : Byte) (rest : List Byte) : ∃ i tail, decode (op :: rest) = .ok (i, tail) := by
  rcases decodeOpcode_cases op rest.head? with ⟨rfl, -⟩ | ⟨rfl, -⟩ | ⟨hnop, hjmp, -⟩
  · exact ⟨_, _, decode_nop rest⟩
  · exact ⟨_, _, decode_jmp_cons rest⟩
  · exact ⟨_, _, decode_unknown hnop hjmp rest⟩

namespace Machine

theorem kindOfOpcode_unknown {op : Byte} (hnop : op ≠ Opcode.nop) (hjmp : op ≠ Opcode.jmp) :
    kindOfOpcode op = .unknown := if_neg (not_or.mpr ⟨hnop, hjmp⟩)

/-- An unrecognised byte leaves `IP` one further, its `Unknown` entry and the count; the control state is as before. -/
theorem State.afterCompleted_of_unknown {s : State} (hnop : s.mem.read s.ip.toNat ≠ Opcode.nop)
    (hjmp : s.mem.read s.ip.toNat ≠ Opcode.jmp) :
    s.afterCompleted =
      { s with
        ip := s.ip + 1, trace := s.trace ++ [⟨s.ip, s.mem.read s.ip.toNat, .unknown⟩], count := s.count + 1 } := by
  rw [State.afterCompleted, State.nextAddress_of_ne_jmp hjmp, kindOfOpcode_unknown hnop hjmp]
  rfl

/-- Settles O21: each row of the dispatch table decodes; the step at an unrecognised byte completes, since only a JMP can
lack its operand, and leaves the Engine as it was before it, `Running`. -/
theorem unknownBytesExecuteAndContinue : Obligations.UnknownBytesExecuteAndContinue := by
  refine ⟨decode_cons_ok, fun s hs hnop hjmp => ?_⟩
  have hrunning : s.control = .running := hs.1
  rw [step_completes hs (absurd · hjmp), State.afterCompleted_of_unknown hnop hjmp, hrunning]

end Machine
end Sys2Proof
end

section
/-! How a run stops once its instruction is done: the two checks at the top of an iteration, and a run with a budget of
one (spec/40_engine_cycle.md R101 to R104). -/

namespace Sys2Proof.Machine

theorem step_of_budget_le {s : State} (hrun : s.control = .running) (hb : s.budget.toNat ≤ s.count.toNat) :
    step s = .next (s.halt .budget) := by
  rcases step_cases s with ⟨h, -⟩ | ⟨-, -, h⟩ | ⟨-, h, -⟩ | ⟨-, h, -⟩
  · exact absurd hrun h
  · exact h
  · omega
  · omega

/-- With `IP` out of memory the next iteration stops, by the budget first (D8). -/
theorem step_of_capacity_le {s : State} (hrun : s.control = .running) (hip : s.capacity ≤ s.ip.toNat) :
    step s = .next (s.halt (if s.count.toNat < s.budget.toNat then .endOfMemory else .budget)) := by
  rcases step_cases s with ⟨h, -⟩ | ⟨-, hb, h⟩ | ⟨-, hb, -, h⟩ | ⟨-, -, h, -⟩
  · exact absurd hrun h
  · rw [if_neg (Nat.not_lt.mpr hb), h]
  · rw [if_pos hb, h]
  · omega

/-- Counting an instruction that the budget allowed never wraps the counter. -/
theorem State.Executes.count_succ_toNat {s : State} (h : s.Executes) : (s.count + 1).toNat = s.count.toNat + 1 := by
  obtain ⟨-, hb, -⟩ := h
  bv_omega

theorem State.enterRun_one_executes (s : State) {a : Word} (ha : a.toNat < s.capacity) : (s.enterRun a 1).Executes :=
  ⟨rfl, Nat.zero_lt_one, ha⟩

/-- `run(a, 1)` is the one instruction at `a`, then the budget check of the second iteration. -/
theorem State.run_one_completes {s : State} {a : Word} (ha : a.toNat < s.capacity)
    (hop : s.mem.read a.toNat = Opcode.jmp → (a + 1).toNat < s.capacity) :
    s.run a 1 = .next ((s.enterRun a 1).afterCompleted.halt .budget) := by
  have hfirst : step (s.enterRun a 1) = .next (s.enterRun a 1).afterCompleted :=
    step_completes (s.enterRun_one_executes ha) hop
  have hsecond : step (s.enterRun a 1).afterCompleted = .next ((s.enterRun a 1).afterCompleted.halt .budget) :=
    step_of_budget_le rfl (Nat.le_refl 1)
  calc s.run a 1
    _ = runLoop 1 (s.enterRun a 1).afterCompleted := runLoop_next 1 rfl hfirst
    _ = runLoop 0 ((s.enterRun a 1).afterCompleted.halt .budget) := runLoop_next 0 rfl hsecond

theorem hostStep_run {s t : State} {a m : Word} (hc : s.control ≠ .running) (h : s.run a m = .next t) :
    hostStep (some s) (.run a m) = .next (some t, .returned) := by
  rw [hostStep_some_of_not_running hc, State.command, h]

end Sys2Proof.Machine
end

section
/-! NOP, whole (spec/41_nop_and_unknown.md R130). -/

namespace Sys2Proof.Machine

theorem exec_nop (s : State) :
    exec .nop s = .next
      { s with ip := s.ip + 1, trace := s.trace ++ [⟨s.ip, Opcode.nop, .recognized⟩], count := s.count + 1 } := rfl

theorem ne_jmp_of_eq_nop {b : Byte} (h : b = Opcode.nop) : b ≠ Opcode.jmp := h ▸ (by decide)

/-- At a NOP the completed iteration leaves what NOP's own meaning leaves. -/
theorem State.afterCompleted_of_nop {s : State} (h : s.mem.read s.ip.toNat = Opcode.nop) :
    s.afterCompleted =
      { s with ip := s.ip + 1, trace := s.trace ++ [⟨s.ip, Opcode.nop, .recognized⟩], count := s.count + 1 } := by
  rw [State.afterCompleted, State.nextAddress_of_ne_jmp (ne_jmp_of_eq_nop h), h]
  rfl

/-- Settles O20: NOP's effect; at the last byte its step leaves `IP` at the capacity, where the next iteration stops; and
`run(0, 1)` at a NOP is that one step with the budget stop after it. -/
theorem nopRecordsAndAdvances : Obligations.NopRecordsAndAdvances := by
  refine ⟨exec_nop, fun s hs hnop hlast hcap => ?_, fun s hc hpos hnop => ?_⟩
  · have hip : s.afterCompleted.ip.toNat = s.capacity := by
      rw [State.afterCompleted_ip, State.nextAddress_of_ne_jmp (ne_jmp_of_eq_nop hnop)]
      bv_omega
    have hrun : s.afterCompleted.control = .running := hs.1
    exact ⟨s.afterCompleted, step_completes hs (absurd · (ne_jmp_of_eq_nop hnop)), hip, hs.count_succ_toNat,
      step_of_capacity_le hrun hip.ge⟩
  · have hrun : s.run 0 1 = .next ((s.enterRun 0 1).afterCompleted.halt .budget) :=
      State.run_one_completes hpos (absurd · (ne_jmp_of_eq_nop hnop))
    rw [State.afterCompleted_of_nop hnop] at hrun
    exact hostStep_run hc hrun

end Sys2Proof.Machine
end

section
/-! Where the host's configuration error and the two normal ends of a run come from (spec/60_exceptions.md R151, R155,
R156). -/

namespace Sys2Proof.Machine

/-- Construction answers the error or the Engine, by the bounds on the capacity alone (R151). -/
theorem hostStep_none_construct (capacity : Nat) :
    hostStep none (.construct capacity) =
      if capacity = 0 ∨ Config.maxCapacity < capacity then .next (none, .invalidConfiguration)
      else .next (some (State.constructed capacity), .constructed) := by
  split_ifs with hbad
  · simp only [hostStep, construct, if_pos hbad]
  · simp only [hostStep, construct, if_neg hbad]

theorem hostStep_none_of_ne_construct {c : HostCommand} (h : ∀ capacity, c ≠ .construct capacity) :
    hostStep none c = .refused .commandNotAccepted := by
  cases c with
  | construct capacity => exact absurd rfl (h capacity)
  | _ => rfl

/-- An Engine's own answers: each command has its reply, and the accesses to memory `OutOfBounds` besides. -/
theorem State.command_ne_invalidConfiguration (s : State) (c : HostCommand) (v : World) :
    s.command c ≠ .next (v, .invalidConfiguration) := by
  cases c with
  | construct _ | observe | destroy => simp [State.command]
  | loadImage buffer addr => cases h : s.loadImage buffer addr <;> simp [State.command, h]
  | writeByte addr value => cases h : s.memWriteByte addr value <;> simp [State.command, h]
  | readByte addr => cases h : s.memReadByte addr <;> simp [State.command, h]
  | readBytes addr length => cases h : s.memRead addr length <;> simp [State.command, h]
  | run start budget => cases h : s.run start budget <;> simp [State.command, h]

theorem hostStep_some_ne_invalidConfiguration (s : State) (c : HostCommand) (v : World) :
    hostStep (some s) c ≠ .next (v, .invalidConfiguration) := by
  by_cases hrun : s.control = .running
  · simp [hostStep_some_of_running hrun]
  · rw [hostStep_some_of_not_running hrun]
    exact s.command_ne_invalidConfiguration c v

/-- Settles O31: an Engine, running or not, never answers the error; where there is none, only `construct` is accepted,
and it answers the error exactly for a capacity out of bounds. -/
theorem invalidConfigurationExactlyAtConstruction : Obligations.InvalidConfigurationExactlyAtConstruction := by
  intro w v c
  cases w with
  | some s => simp [hostStep_some_ne_invalidConfiguration]
  | none =>
    by_cases hc : ∃ capacity, c = .construct capacity
    · obtain ⟨capacity, rfl⟩ := hc
      rw [hostStep_none_construct]
      split_ifs with hbad
      · simp [hbad, eq_comm]
      · simp [hbad]
    · rw [hostStep_none_of_ne_construct (not_exists.mp hc)]
      exact ⟨nofun, fun ⟨_, _, capacity, hcon, _⟩ => absurd ⟨capacity, hcon⟩ hc⟩

/-- Settles O15: the budget is checked first, so `IP` plays no part, and the stop writes two fields. -/
theorem budgetExhaustionHalts : Obligations.BudgetExhaustionHalts :=
  fun _ hrun hspent => step_of_budget_le hrun hspent

/-- Settles O16: with `IP` out of memory the stop is by the budget only where the budget is spent. -/
theorem endOfMemoryHalts : Obligations.EndOfMemoryHalts := by
  intro s hrun hleft hip
  rw [step_of_capacity_le hrun hip, if_pos hleft]
  rfl

end Sys2Proof.Machine
end

section
/-! An image that does not fit is not loaded, and a fresh Engine's memory is all zero (spec/70_reset_and_hazards.md
R184). -/

namespace Sys2Proof.Machine

/-- The host's `load_image` past the end of memory answers the error and leaves the Engine as it was. -/
theorem hostStep_loadImage_of_lt {s : State} {bs : List Byte} {addr : Word} (hc : s.control ≠ .running)
    (h : s.capacity < addr.toNat + bs.length) :
    hostStep (some s) (.loadImage bs addr) = .next (some s, .outOfBounds ⟨addr, bs.length⟩) := by
  rw [hostStep_some_of_not_running hc, State.command, State.loadImage_of_lt h]

theorem State.constructed_memReadByte {n : Nat} {a : Word} (h : a.toNat < n) :
    (State.constructed n).memReadByte a = .ok 0 := State.memReadByte_of_lt h

/-- Settles O33: the image would end past the capacity, whatever its bytes, and a fresh Engine is `Idle`. -/
theorem oversizedImageIsNotLoaded : Obligations.OversizedImageIsNotLoaded := by
  intro image hlen
  have hidle : (State.constructed 8192).control ≠ .running := nofun
  have hover : (State.constructed 8192).capacity < (0x7C00 : Word).toNat + image.length := by
    rw [hlen]
    decide
  refine ⟨State.constructed 8192, ?_, rfl, State.constructed_control 8192, fun _ => State.constructed_memReadByte⟩
  rw [hostStep_loadImage_of_lt hidle hover, hlen]

end Sys2Proof.Machine
end

section
/-! Decoder and encoder are inverse to each other, on one instruction and on a whole stream (spec/30_encoding.md
sections 1 and 2, spec/40_engine_cycle.md section 2). -/

namespace Sys2Proof

theorem decode_encode {i : Instr} (h : i.wf = true) (rest : List Byte) : decode (encode i ++ rest) = .ok (i, rest) := by
  rcases Instr.wf_cases h with rfl | ⟨d, rfl⟩ | ⟨op, rfl, hnop, hjmp⟩
  · exact decode_nop rest
  · exact decode_jmp d rest
  · exact decode_unknown hnop hjmp rest

theorem length_encode {i : Instr} (h : i.wf = true) : (encode i).length = insnLength i.opcode := by
  cases i with
  | nop => exact Laws.Encoding.nop.2 h
  | jmp d => exact (Laws.Encoding.jmp d).2 h
  | unknown op => exact (Laws.Encoding.unknown op).2 h

theorem Instr.wf_unknown {op : Byte} (hnop : op ≠ Opcode.nop) (hjmp : op ≠ Opcode.jmp) :
    (Instr.unknown op).wf = true := by
  simp [Instr.wf, Instr.check, hnop, hjmp]

/-- Decoding more instructions than the stream holds goes on with what follows it. -/
theorem decodeStream_flatMap_encode {is : List Instr} (h : ∀ i ∈ is, i.wf = true) (k : Nat) (rest : List Byte) :
    decodeStream (is.length + k) (is.flatMap encode ++ rest) = is ++ decodeStream k rest := by
  induction is with
  | nil => simp
  | cons i is ih =>
    obtain ⟨hi, his⟩ := List.forall_mem_cons.mp h
    rw [List.length_cons, Nat.succ_add, decodeStream, List.flatMap_cons, List.append_assoc, decode_encode hi]
    simp only [ih his, List.cons_append]

theorem decodeStream_nil (k : Nat) : decodeStream k [] = [] := by
  cases k <;> rfl

theorem flatMap_encode_injective {is js : List Instr} (his : ∀ i ∈ is, i.wf = true) (hjs : ∀ j ∈ js, j.wf = true)
    (h : js.flatMap encode = is.flatMap encode) : js = is := by
  have hi := decodeStream_flatMap_encode his js.length []
  have hj := decodeStream_flatMap_encode hjs is.length []
  simp only [decodeStream_nil, List.append_nil] at hi hj
  calc js = decodeStream (js.length + is.length) (js.flatMap encode) := hj.symm
    _ = decodeStream (is.length + js.length) (is.flatMap encode) := by rw [h, Nat.add_comm]
    _ = is := hi

/-- Settles O4: the stream is decoded instruction by instruction; two lists with the same bytes are both what those
bytes decode to. -/
theorem instructionStreamRoundTrip : Obligations.InstructionStreamRoundTrip := by
  refine fun is rest his => ⟨?_, fun js hjs => flatMap_encode_injective his hjs⟩
  simpa [decodeStream] using decodeStream_flatMap_encode his 0 rest

/-- Settles O2: row by row of the dispatch table. -/
theorem decodeOfEncode : Obligations.DecodeOfEncode := fun _ rest h => ⟨decode_encode h rest, length_encode h⟩

/-- Settles O3: each row of the dispatch table gives its bytes back; only a JMP at the last byte has no operand. -/
theorem encodeOfDecode : Obligations.EncodeOfDecode := by
  intro bytes rest i h
  match bytes with
  | [] => cases h
  | op :: tail =>
    rcases decodeOpcode_cases op tail.head? with ⟨rfl, -⟩ | ⟨rfl, -⟩ | ⟨hnop, hjmp, -⟩
    · cases (decode_nop tail).symm.trans h
      exact ⟨rfl, .inl rfl⟩
    · cases (decode_jmp_cons tail).symm.trans h
      cases tail with
      | nil => exact ⟨rfl, .inr ⟨rfl, rfl⟩⟩
      | cons d tail => exact ⟨rfl, .inl rfl⟩
    · cases (decode_unknown hnop hjmp tail).symm.trans h
      exact ⟨rfl, .inl (Instr.wf_unknown hnop hjmp)⟩

/-- Settles O1: each word is one evaluation of the decoder. -/
theorem sampleWordsDecode : Obligations.SampleWordsDecode := ⟨rfl, rfl, rfl, rfl, rfl⟩

end Sys2Proof
end

section
/-! A step always answers a next state, that of the spec's iteration (spec/40_engine_cycle.md section 2). -/

namespace Sys2Proof.Machine

theorem exec_total (i : Instr) (s : State) : Completes (exec i s) := by
  obtain ⟨_, -, ⟨_, hnext⟩ | ⟨-, hfault⟩⟩ := exec_cases i s
  · exact ⟨_, hnext⟩
  · exact ⟨_, hfault⟩

theorem step_total (s : State) : Completes (step s) := by
  rcases step_cases s with ⟨-, hs⟩ | ⟨-, -, hs⟩ | ⟨-, -, -, hs⟩ | ⟨-, -, -, hs⟩
  · exact ⟨_, hs⟩
  · exact ⟨_, hs⟩
  · exact ⟨_, hs⟩
  · exact hs ▸ exec_total _ s

/-- Settles O19: every case of `step` and of `exec` is a next state. -/
theorem everyStepAnswersANextState : Obligations.EveryStepAnswersANextState := ⟨step_total, exec_total⟩

theorem step_of_not_running {s : State} (h : s.control ≠ .running) : step s = .next s := by
  rcases step_cases s with ⟨-, hs⟩ | ⟨hc, -⟩ | ⟨hc, -⟩ | ⟨hc, -⟩
  · exact hs
  · exact absurd hc h
  · exact absurd hc h
  · exact absurd hc h

/-- Settles O17. -/
theorem nothingMovesOutsideRunning : Obligations.NothingMovesOutsideRunning := fun _ => step_of_not_running

theorem State.Executes.isRunning {s : State} (h : s.Executes) : s.control = .running := h.1

theorem State.Executes.budget_left {s : State} (h : s.Executes) : s.count.toNat < s.budget.toNat := h.2.1

theorem State.Executes.ip_lt {s : State} (h : s.Executes) : s.ip.toNat < s.capacity := h.2.2

theorem step_of_executes {s : State} (h : s.Executes) :
    step s = exec (decodeOpcode (s.mem.read s.ip.toNat) s.operandAt) s := by
  obtain ⟨hc, hb, hm⟩ := h
  rcases step_cases s with ⟨hn, -⟩ | ⟨-, hle, -⟩ | ⟨-, -, hle, -⟩ | ⟨-, -, -, hs⟩
  · exact absurd hc hn
  · omega
  · omega
  · exact hs

theorem State.insnBytes_of_lt {s : State} (h : s.ip.toNat < s.capacity) :
    s.insnBytes = s.mem.read s.ip.toNat :: s.operandAt.toList := by
  unfold State.insnBytes
  rw [State.memReadByte_of_lt h]

/-- The fetch's instruction is what its bytes decode to. -/
theorem State.decode_insnBytes_of_fetchInsn {s : State} {i : Instr} (h : s.fetchInsn = some i) :
    ∃ rest, decode s.insnBytes = .ok (i, rest) := by
  unfold State.fetchInsn at h
  split at h
  · next j rest hd => exact ⟨rest, Option.some.inj h ▸ hd⟩
  · cases h

/-- Settles O14: the fetch's bytes by where memory ends, then the instruction they decode to. -/
theorem stepRunsTheDecodedInstruction : Obligations.StepRunsTheDecodedInstruction := by
  intro s hs
  obtain ⟨rest, hdecode⟩ := State.decode_insnBytes_of_fetchInsn (State.fetchInsn_of_lt hs.ip_lt)
  refine ⟨?_, _, rest, hdecode, step_of_executes hs⟩
  rw [State.insnBytes_of_lt hs.ip_lt]
  split_ifs with hlt
  · rw [State.operandAt_of_lt hlt, Option.toList_some]
  · rw [State.operandAt_of_le (Nat.le_of_not_lt hlt), Option.toList_none]

/-- The spec's iteration where an instruction completes. -/
theorem iteratePseudocode_of_completes {s : State} (h : s.Executes)
    (hop : s.mem.read s.ip.toNat = Opcode.jmp → (s.ip + 1).toNat < s.capacity) :
    iteratePseudocode s = s.afterCompleted := by
  have hbudget : ¬ s.budget.toNat ≤ s.count.toNat := Nat.not_le.mpr h.budget_left
  have hmem : ¬ s.capacity < s.ip.toNat + 1 := Nat.not_lt.mpr h.ip_lt
  rw [State.afterCompleted]
  by_cases hj : s.mem.read s.ip.toNat = Opcode.jmp
  · have hdisp : ¬ s.capacity < (s.ip + 1).toNat + 1 := Nat.not_lt.mpr (hop hj)
    have hip : s.ip + 2 = s.ip + 1 + 1 := by bv_omega
    rw [State.nextAddress_of_jmp hj, hip]
    exact (if_neg hbudget).trans ((if_neg hmem).trans ((if_pos hj).trans (if_neg hdisp)))
  · rw [State.nextAddress_of_ne_jmp hj]
    exact (if_neg hbudget).trans ((if_neg hmem).trans (if_neg hj))

/-- The spec's iteration where a JMP is cut off by the end of memory. -/
theorem iteratePseudocode_of_cut_off {s : State} (h : s.Executes) (hj : s.mem.read s.ip.toNat = Opcode.jmp)
    (hlt : s.capacity ≤ (s.ip + 1).toNat) : iteratePseudocode s = s.afterCutOff := by
  have hbudget : ¬ s.budget.toNat ≤ s.count.toNat := Nat.not_le.mpr h.budget_left
  have hmem : ¬ s.capacity < s.ip.toNat + 1 := Nat.not_lt.mpr h.ip_lt
  have hdisp : s.capacity < (s.ip + 1).toNat + 1 := Nat.lt_succ_of_le hlt
  refine (if_neg hbudget).trans ((if_neg hmem).trans ((if_pos hj).trans ((if_pos hdisp).trans ?_)))
  rw [hj]
  rfl

/-- Settles O18: the iteration answers what the step does in each of the cases a running step has. -/
theorem stepIsTheSpecsIteration : Obligations.StepIsTheSpecsIteration := by
  intro s hrun
  obtain ⟨t, ht⟩ := step_total s
  rcases step_inversion ht with
    ⟨hn, -⟩ | ⟨-, hb, rfl⟩ | ⟨-, hb, hm, rfl⟩ | ⟨hs, hop, rfl⟩ | ⟨hs, hj, hlt, rfl⟩
  · exact absurd hrun hn
  · have hspec : iteratePseudocode s = s.halt .budget := if_pos hb
    rw [ht, hspec]
  · have hspec : iteratePseudocode s = s.halt .endOfMemory :=
      (if_neg (Nat.not_le.mpr hb)).trans (if_pos (Nat.lt_succ_of_le hm))
    rw [ht, hspec]
  · rw [ht, iteratePseudocode_of_completes hs hop]
  · rw [ht, iteratePseudocode_of_cut_off hs hj hlt]

end Sys2Proof.Machine
end

section
/-! The meaning and the frame of JMP, with its displacement byte and without, and of the one-byte instructions
(spec/41_nop_and_unknown.md, spec/42_control_transfer.md, spec/60_exceptions.md section 1). -/

namespace Sys2Proof.Machine

theorem exec_jmp_of_lt {s : State} (d : Byte) (h : (s.ip + 1).toNat < s.capacity) :
    exec (.jmp (some d)) s = .next
      { s with
        ip := s.ip + 2 + sext64 d, trace := s.trace ++ [⟨s.ip, Opcode.jmp, .recognized⟩], count := s.count + 1 } := by
  have hip : s.ip + 2 = s.ip + 1 + 1 := by bv_omega
  rcases (s.advanceIp.traceAppend ⟨s.ip, Opcode.jmp, .recognized⟩).takeOperand_cases (some d) with
    ⟨_, hd, -, hok⟩ | ⟨hnone | hle, -⟩
  · cases hd
    simp only [exec, execJmp, State.runHandler, jmpHandler, hok, hip]
    rfl
  · cases hnone
  · exact absurd h (Nat.not_lt.mpr hle)

theorem exec_jmp_cut_off {d : Option Byte} {s : State} (h : d = none ∨ s.capacity ≤ (s.ip + 1).toNat) :
    exec (.jmp d) s = .next s.afterCutOff := by
  rcases (s.advanceIp.traceAppend ⟨s.ip, Opcode.jmp, .recognized⟩).takeOperand_cases d with
    ⟨_, rfl, hlt, -⟩ | ⟨-, herr⟩
  · rcases h with hnone | hle
    · cases hnone
    · exact absurd hlt (Nat.not_lt.mpr hle)
  · simp only [exec, execJmp, State.runHandler, jmpHandler, herr]
    rfl

theorem exec_unknown (op : Byte) (s : State) :
    exec (.unknown op) s = .next
      { s with ip := s.ip + 1, trace := s.trace ++ [⟨s.ip, op, .unknown⟩], count := s.count + 1 } := rfl

theorem jump_to_itself (a : Word) : a + 2 + sext64 0xFE = a := by
  have hminus : sext64 0xFE = -2 := by decide
  rw [hminus, BitVec.add_assoc]
  exact BitVec.add_zero a

/-- Settles O23. -/
theorem jmpTransfersControl : Obligations.JmpTransfersControl :=
  ⟨fun d _ h => exec_jmp_of_lt d h, fun s => jump_to_itself s.ip⟩

/-- Settles O24. -/
theorem jmpWithoutDisplacementFaults : Obligations.JmpWithoutDisplacementFaults := fun _ _ h => exec_jmp_cut_off h

/-- A read of a byte depends on the memory and its capacity alone. -/
theorem State.memReadByte_congr {s t : State} (hmem : t.mem = s.mem) (hcap : t.capacity = s.capacity) (a : Word) :
    t.memReadByte a = s.memReadByte a := by
  unfold State.memReadByte State.inBounds
  rw [hmem, hcap]

theorem State.readGpr_congr {s t : State} (h : t.gpr = s.gpr) (r : Fin 8) : t.readGpr r = s.readGpr r := by
  unfold State.readGpr
  rw [h]

/-- What no instruction changes: registers, `FLAGS`, memory, capacity and budget. -/
structure State.SameResources (s t : State) : Prop where
  gpr_eq : t.gpr = s.gpr
  flags_eq : t.flags = s.flags
  mem_eq : t.mem = s.mem
  capacity_eq : t.capacity = s.capacity
  budget_eq : t.budget = s.budget

theorem State.SameResources.refl (s : State) : s.SameResources s := ⟨rfl, rfl, rfl, rfl, rfl⟩

theorem State.SameResources.trans {s t u : State} (h : s.SameResources t) (k : t.SameResources u) :
    s.SameResources u where
  gpr_eq := k.gpr_eq.trans h.gpr_eq
  flags_eq := k.flags_eq.trans h.flags_eq
  mem_eq := k.mem_eq.trans h.mem_eq
  capacity_eq := k.capacity_eq.trans h.capacity_eq
  budget_eq := k.budget_eq.trans h.budget_eq

/-- Every instruction keeps the resources and the earlier entries of the trace. -/
theorem exec_frame {i : Instr} {s t : State} (h : exec i s = .next t) :
    s.SameResources t ∧ s.trace <+: t.trace := by
  obtain ⟨kind, -, ⟨ip, hnext⟩ | ⟨-, hfault⟩⟩ := exec_cases i s
  · cases hnext.symm.trans h
    exact ⟨⟨rfl, rfl, rfl, rfl, rfl⟩, _, rfl⟩
  · cases hfault.symm.trans h
    exact ⟨⟨rfl, rfl, rfl, rfl, rfl⟩, _, rfl⟩

/-- Settles O28: the common frame, and neither instruction ends otherwise than by being counted. -/
theorem oneByteInstructionFrame : Obligations.OneByteInstructionFrame := by
  intro i s t hi h
  obtain ⟨hr, htrace⟩ := exec_frame h
  have hrun : t.control = s.control ∧ t.stop = s.stop := by
    rcases hi with rfl | ⟨op, rfl⟩
    · cases (exec_nop s).symm.trans h
      exact ⟨rfl, rfl⟩
    · cases (exec_unknown op s).symm.trans h
      exact ⟨rfl, rfl⟩
  exact ⟨State.readGpr_congr hr.gpr_eq, hr.flags_eq, hrun.1, hrun.2, hr.budget_eq, hr.capacity_eq, htrace,
    State.memReadByte_congr hr.mem_eq hr.capacity_eq⟩

/-- Settles O29: the common frame; with the displacement byte JMP is counted, without it JMP faults. -/
theorem jmpFrame : Obligations.JmpFrame := by
  intro d s t h
  obtain ⟨hr, htrace⟩ := exec_frame h
  refine ⟨State.readGpr_congr hr.gpr_eq, hr.flags_eq, hr.budget_eq, hr.capacity_eq, htrace,
    State.memReadByte_congr hr.mem_eq hr.capacity_eq, fun ⟨hd, hlt⟩ => ?_, fun hcut => ?_⟩
  · obtain ⟨d, rfl⟩ := Option.ne_none_iff_exists'.mp hd
    cases (exec_jmp_of_lt d hlt).symm.trans h
    exact ⟨rfl, rfl⟩
  · cases (exec_jmp_cut_off hcut).symm.trans h
    rfl

end Sys2Proof.Machine
end

section
/-! A cut-off JMP is the only fault, and a jump out of memory is none (spec/42_control_transfer.md,
spec/60_exceptions.md section 1). -/

namespace Sys2Proof.Machine

/-- A step that executes faults exactly where its JMP lacks the operand byte. -/
theorem step_faults_iff {s : State} (h : s.Executes) :
    (∃ t, step s = .next t ∧ t.control = .faulted) ↔
      (s.mem.read s.ip.toNat = Opcode.jmp ∧ s.capacity ≤ (s.ip + 1).toNat) := by
  refine ⟨fun ⟨t, ht, hf⟩ => ?_, fun ⟨hj, hle⟩ => ⟨s.afterCutOff, step_cut_off h hj hle, rfl⟩⟩
  by_contra hcut
  have hop : s.mem.read s.ip.toNat = Opcode.jmp → (s.ip + 1).toNat < s.capacity :=
    fun hj => Nat.lt_of_not_le fun hle => hcut ⟨hj, hle⟩
  cases (step_completes h hop).symm.trans ht
  cases h.isRunning.symm.trans hf

/-- In a Memory that `IP` can run past, no operand byte means that the opcode is the last byte. -/
theorem State.operand_outside_iff {s : State} (h : s.ip.toNat < s.capacity) (hcap : s.capacity ≤ 2 ^ 64 - 1) :
    s.capacity ≤ (s.ip + 1).toNat ↔ s.ip.toNat + 1 = s.capacity := by
  have hip : (s.ip + 1).toNat = s.ip.toNat + 1 := by bv_omega
  omega

/-- Settles O25: the fault is where the JMP lacks its operand, which is at the last byte; what it leaves is
`State.afterCutOff`. -/
theorem onlyACutOffJumpFaults : Obligations.OnlyACutOffJumpFaults := by
  intro s hs hcap
  have hm := hs.ip_lt
  have hfault : (∃ t, step s = .next t ∧ t.control = .faulted) ↔
      (s.mem.read s.ip.toNat = Opcode.jmp ∧ s.ip.toNat + 1 = s.capacity) := by
    rw [step_faults_iff hs, State.operand_outside_iff hm hcap]
  refine ⟨State.fetchInsn_of_lt hm, hfault, fun t ht hf => ?_⟩
  obtain ⟨hj, hlast⟩ := hfault.mp ⟨t, ht, hf⟩
  cases (step_cut_off hs hj ((State.operand_outside_iff hm hcap).mpr hlast)).symm.trans ht
  have hip : s.afterCutOff.ip.toNat = s.capacity := by
    rw [State.afterCutOff_ip]
    bv_omega
  exact ⟨hip, rfl, rfl, rfl⟩

/-- Settles O26: the jump completes, and its target outside memory is met by the checks of the next iteration. -/
theorem jumpOutOfMemoryHaltsNormally : Obligations.JumpOutOfMemoryHaltsNormally := by
  rintro s d hs hj hlt rfl hout
  have hip : s.afterCompleted.ip = s.ip + 2 + sext64 (s.mem.read (s.ip + 1).toNat) := State.nextAddress_of_jmp hj
  have hrun : s.afterCompleted.control = .running := hs.isRunning
  exact ⟨s.afterCompleted, step_completes hs fun _ => hlt, hrun, hip, step_of_capacity_le hrun (hip ▸ hout)⟩

end Sys2Proof.Machine
end

section
/-! UNKNOWN, run again and again (spec/41_nop_and_unknown.md). -/

namespace Sys2Proof.Machine

/-- What `run(a, 1)` leaves at an unrecognised byte. -/
def State.afterUnknownRun (s : State) (a : Word) : State :=
  { s with
    ip := a + 1, count := 1, budget := 1, trace := [⟨a, s.mem.read a.toNat, .unknown⟩]
    control := .halted, stop := .halted .budget }

theorem State.run_one_unknown {s : State} {a : Word} (ha : a.toNat < s.capacity)
    (hnop : s.mem.read a.toNat ≠ Opcode.nop) (hjmp : s.mem.read a.toNat ≠ Opcode.jmp) :
    s.run a 1 = .next (s.afterUnknownRun a) := by
  rw [State.run_one_completes ha (absurd · hjmp), State.afterCompleted_of_unknown hnop hjmp]
  rfl

theorem hostSteps_cons {w v u : World} {c : HostCommand} {cs : List HostCommand} {r : HostReply} {rs : List HostReply}
    (h : hostStep w c = .next (v, r)) (hs : hostSteps v cs = .next (u, rs)) :
    hostSteps w (c :: cs) = .next (u, r :: rs) := by
  simp only [hostSteps, h, hs]

/-- A command that answers the same once its effect is there answers the same any number of times. -/
theorem hostSteps_replicate {w v : World} {c : HostCommand} {r : HostReply} (hfirst : hostStep w c = .next (v, r))
    (hagain : hostStep v c = .next (v, r)) (n : Nat) :
    hostSteps w (List.replicate (n + 1) c) = .next (v, List.replicate (n + 1) r) := by
  induction n generalizing w with
  | zero => exact hostSteps_cons hfirst rfl
  | succ n ih => exact hostSteps_cons hfirst (ih hagain)

/-- Settles O22: one run at the byte leaves `State.afterUnknownRun`, which the next run at it leaves again. -/
theorem unknownOpcodeIsIdempotent : Obligations.UnknownOpcodeIsIdempotent := by
  refine ⟨fun op s _ _ => exec_unknown op s, fun s a n hc ha hnop hjmp => ?_⟩
  have hfirst : s.run a 1 = .next (s.afterUnknownRun a) := State.run_one_unknown ha hnop hjmp
  have hagain : (s.afterUnknownRun a).run a 1 = .next (s.afterUnknownRun a) := State.run_one_unknown ha hnop hjmp
  exact hostSteps_replicate (hostStep_run hc hfirst) (hostStep_run nofun hagain) n

end Sys2Proof.Machine
end

section
/-! The loop of a run: what every iteration keeps holds at its end, and it ends (spec/40_engine_cycle.md sections 1
and 2). -/

namespace Sys2Proof.Machine

/-- One turn of the loop from any state: outside `Running` the step changes nothing. -/
theorem runLoop_succ {s t : State} (n : Nat) (h : step s = .next t) : runLoop (n + 1) s = runLoop n t := by
  by_cases hrun : s.control = .running
  · exact runLoop_next n hrun h
  · cases (step_of_not_running hrun).symm.trans h
    rw [runLoop_stopped _ hrun, runLoop_stopped _ hrun]

/-- The host's own iteration of `step` is the loop. -/
theorem core_run_eq_runLoop (n : Nat) (s : State) : Host.Core.run Sys2Proof.core n s = runLoop n s := by
  induction n generalizing s with
  | zero => rfl
  | succ n ih =>
    obtain ⟨t, ht⟩ := step_total s
    have hcore : Host.Core.step Sys2Proof.core s = .next t := ht
    rw [runLoop_succ n ht, ← ih t]
    simp only [Host.Core.run, hcore]

theorem runLoop_total (n : Nat) (s : State) : Completes (runLoop n s) := by
  induction n generalizing s with
  | zero => exact ⟨s, rfl⟩
  | succ n ih =>
    obtain ⟨t, ht⟩ := step_total s
    rw [runLoop_succ n ht]
    exact ih t

/-- What every step keeps, the loop keeps. -/
theorem runLoop_invariant {P : State → Prop} (hstep : ∀ s t, P s → step s = .next t → P t) {n : Nat} {s t : State}
    (hs : P s) (h : runLoop n s = .next t) : P t := by
  induction n generalizing s with
  | zero =>
    cases h
    exact hs
  | succ n ih =>
    obtain ⟨u, hu⟩ := step_total s
    rw [runLoop_succ n hu] at h
    exact ih (hstep s u hs hu) h

/-- What run entry establishes and every step keeps holds of what a run returns. -/
theorem State.run_invariant {P : State → Prop} (hstep : ∀ s t, P s → step s = .next t → P t) {s t : State} {a m : Word}
    (hentry : P (s.enterRun a m)) (h : s.run a m = .next t) : P t := runLoop_invariant hstep hentry h

theorem runLoop_add {n : Nat} {s t : State} (h : runLoop n s = .next t) (k : Nat) :
    runLoop (n + k) s = runLoop k t := by
  induction n generalizing s with
  | zero =>
    cases h
    rw [Nat.zero_add]
  | succ n ih =>
    obtain ⟨u, hu⟩ := step_total s
    rw [runLoop_succ n hu] at h
    rw [Nat.succ_add, runLoop_succ _ hu, ih h]

/-- More iterations than the loop needs change nothing. -/
theorem runLoop_of_le {n k : Nat} {s t : State} (h : runLoop n s = .next t) (ht : t.control ≠ .running)
    (hk : n ≤ k) : runLoop k s = .next t := by
  obtain ⟨j, rfl⟩ := Nat.exists_eq_add_of_le hk
  rw [runLoop_add h, runLoop_stopped j ht]

/-- Every completed iteration uses up one of the budget, and no other one goes on. -/
theorem runLoop_stops {n : Nat} {s t : State} (hn : s.budget.toNat - s.count.toNat < n)
    (h : runLoop n s = .next t) : t.control ≠ .running := by
  induction n generalizing s with
  | zero => omega
  | succ n ih =>
    obtain ⟨u, hu⟩ := step_total s
    rw [runLoop_succ n hu] at h
    have hstopped (hc : u.control ≠ .running) : t.control ≠ .running := by
      cases (runLoop_stopped n hc).symm.trans h
      exact hc
    rcases step_inversion hu with ⟨hc, rfl⟩ | ⟨-, -, rfl⟩ | ⟨-, -, -, rfl⟩ | ⟨hs, -, rfl⟩ | ⟨-, -, -, rfl⟩
    · exact hstopped hc
    · exact hstopped nofun
    · exact hstopped nofun
    · have hleft : s.budget.toNat - (s.count + 1).toNat < n := by
        have hb := hs.budget_left
        rw [hs.count_succ_toNat]
        omega
      exact ih hleft h
    · exact hstopped nofun

theorem State.run_stops {s t : State} {a m : Word} (h : s.run a m = .next t) : t.control ≠ .running :=
  runLoop_stops (Nat.lt_succ_self m.toNat) h

/-- However many iterations the loop was given, a state in which it stopped is the one the run returns. -/
theorem State.run_eq_of_runLoop {k : Nat} {s t : State} {a m : Word} (h : runLoop k (s.enterRun a m) = .next t)
    (ht : t.control ≠ .running) : s.run a m = .next t := by
  obtain ⟨u, hu⟩ := runLoop_total (m.toNat + 1) (s.enterRun a m)
  have hk := runLoop_of_le h ht (Nat.le_add_right k (m.toNat + 1))
  cases hk.symm.trans (runLoop_of_le hu (State.run_stops hu) (Nat.le_add_left _ k))
  exact hu

/-- What holds at every moment of a run, of the fields that run entry sets. -/
structure State.InRun (s : State) : Prop where
  not_idle : s.control ≠ .idle
  stop_none : s.control = .running → s.stop = .none
  count_le : s.count.toNat ≤ s.budget.toNat
  length_le : s.trace.length ≤ s.budget.toNat
  length_eq : s.control = .running → s.trace.length = s.count.toNat

theorem State.enterRun_inRun (s : State) (a m : Word) : (s.enterRun a m).InRun where
  not_idle := nofun
  stop_none _ := rfl
  count_le := Nat.zero_le _
  length_le := Nat.zero_le _
  length_eq _ := rfl

/-- A stop keeps the bounds, whatever it records. -/
theorem State.InRun.of_stopped {s t : State} (h : s.InRun) (hidle : t.control ≠ .idle) (hrun : t.control ≠ .running)
    (hcount : t.count = s.count) (hbudget : t.budget = s.budget) (htrace : t.trace.length ≤ s.budget.toNat) :
    t.InRun where
  not_idle := hidle
  stop_none := (absurd · hrun)
  count_le := hcount ▸ hbudget ▸ h.count_le
  length_le := hbudget ▸ htrace
  length_eq := (absurd · hrun)

/-- An executing iteration adds one entry, which the budget has room for. -/
theorem State.InRun.length_succ_le {s : State} (h : s.InRun) (hs : s.Executes) (e : TraceEntry) :
    (s.trace ++ [e]).length = s.count.toNat + 1 ∧ (s.trace ++ [e]).length ≤ s.budget.toNat := by
  have hb := hs.budget_left
  have hlen := h.length_eq hs.isRunning
  simp only [List.length_append, List.length_singleton]
  omega

theorem step_inRun (s t : State) (h : s.InRun) (ht : step s = .next t) : t.InRun := by
  rcases step_inversion ht with ⟨-, rfl⟩ | ⟨-, -, rfl⟩ | ⟨-, -, -, rfl⟩ | ⟨hs, -, rfl⟩ | ⟨hs, -, -, rfl⟩
  · exact h
  · exact h.of_stopped nofun nofun rfl rfl h.length_le
  · exact h.of_stopped nofun nofun rfl rfl h.length_le
  · obtain ⟨hlen, hle⟩ := h.length_succ_le hs _
    have hcount := hs.count_succ_toNat
    exact ⟨h.not_idle, h.stop_none, hcount.trans_le (hlen ▸ hle), hle, fun _ => hlen.trans hcount.symm⟩
  · exact h.of_stopped nofun nofun rfl rfl (h.length_succ_le hs _).2

/-- A run always returns, and what it returns is at rest. -/
theorem State.run_total (s : State) (a m : Word) :
    ∃ t, s.run a m = .next t ∧ t.control ≠ .running ∧ t.InRun := by
  obtain ⟨t, ht⟩ := runLoop_total (m.toNat + 1) (s.enterRun a m)
  exact ⟨t, ht, State.run_stops ht, State.run_invariant step_inRun (s.enterRun_inRun a m) ht⟩

theorem State.InRun.terminal {s : State} (h : s.InRun) (hrun : s.control ≠ .running) : s.Terminal := by
  cases hc : s.control with
  | idle => exact absurd hc h.not_idle
  | running => exact absurd hc hrun
  | halted => exact .inl hc
  | faulted => exact .inr hc

/-- No step changes a resource. -/
theorem step_sameResources {s t : State} (h : step s = .next t) : s.SameResources t := by
  rcases step_inversion h with ⟨-, rfl⟩ | ⟨-, -, rfl⟩ | ⟨-, -, -, rfl⟩ | ⟨-, -, rfl⟩ | ⟨-, -, -, rfl⟩ <;>
    exact ⟨rfl, rfl, rfl, rfl, rfl⟩

theorem State.run_sameResources {s t : State} {a m : Word} (h : s.run a m = .next t) :
    (s.enterRun a m).SameResources t :=
  State.run_invariant (fun _ _ hs ht => hs.trans (step_sameResources ht)) (State.SameResources.refl _) h

/-- Settles O39: the loop uses up the budget, so it stops within its iterations, and neither loop moves after that. -/
theorem everyRunTerminates : Obligations.EveryRunTerminates := by
  intro s a m
  obtain ⟨t, ht, hstop, hrun⟩ := s.run_total a m
  have hbudget : t.budget = m := (State.run_sameResources ht).budget_eq
  refine ⟨t, ht, hrun.terminal hstop, hbudget ▸ hrun.count_le, hbudget ▸ hrun.length_le, fun n hn => ?_⟩
  have hmore : runLoop n (s.enterRun a m) = .next t := runLoop_of_le ht hstop hn
  exact ⟨hmore, (core_run_eq_runLoop n _).trans hmore⟩

/-- Settles O40: no step changes a resource, and run entry sets the budget alone. -/
theorem runsKeepRegistersAndMemory : Obligations.RunsKeepRegistersAndMemory := by
  intro s t a m h
  obtain ⟨hgpr, hflags, hmem, hcap, hbudget⟩ := State.run_sameResources h
  exact ⟨State.readGpr_congr hgpr, hflags, hmem, hcap, hbudget⟩

/-- Settles O38: the budget check is the first thing a run does. -/
theorem runEntryAndEmptyBudget : Obligations.RunEntryAndEmptyBudget := by
  refine fun s a m => ⟨rfl, ?_⟩
  have hfirst : step (s.enterRun a 0) = .next ((s.enterRun a 0).halt .budget) := step_of_budget_le rfl (Nat.le_refl 0)
  exact runLoop_succ 0 hfirst

/-- Settles O43: at an address in memory the one iteration the budget allows completes or is cut off. -/
theorem runOfOneIsASingleStep : Obligations.RunOfOneIsASingleStep := by
  intro s hm
  have hs : (s.enterRun s.ip 1).Executes := s.enterRun_one_executes hm
  by_cases hop : s.mem.read s.ip.toNat = Opcode.jmp → (s.ip + 1).toNat < s.capacity
  case pos => exact ⟨_, step_completes hs hop, .inr ⟨rfl, rfl, State.run_one_completes hm hop⟩⟩
  case neg =>
    obtain ⟨hj, hlt⟩ := Classical.not_imp.mp hop
    have hcut : step (s.enterRun s.ip 1) = .next (s.enterRun s.ip 1).afterCutOff :=
      step_cut_off hs hj (Nat.le_of_not_lt hlt)
    exact ⟨_, hcut, .inl ⟨rfl, State.run_eq_of_runLoop (runLoop_succ 0 hcut) nofun⟩⟩

end Sys2Proof.Machine
end

section
/-! Two runs beside each other: with other registers, and with a larger budget (spec/10_state.md sections 1 and 3,
spec/60_exceptions.md section 2). -/

namespace Sys2Proof.Machine

/-- `F` changes nothing at `s` that an iteration looks at, and what it changes it changes alike after one. -/
structure StepMap (F : State → State) (s : State) : Prop where
  control_eq : (F s).control = s.control
  mem_eq : (F s).mem = s.mem
  capacity_eq : (F s).capacity = s.capacity
  ip_eq : (F s).ip = s.ip
  spent_iff : (F s).budget.toNat ≤ (F s).count.toNat ↔ s.budget.toNat ≤ s.count.toNat
  halt_eq : ∀ r, F (s.halt r) = (F s).halt r
  completed_eq : F s.afterCompleted = (F s).afterCompleted
  cut_off_eq : F s.afterCutOff = (F s).afterCutOff

theorem StepMap.executes {F : State → State} {s : State} (hF : StepMap F s) (h : s.Executes) : (F s).Executes := by
  obtain ⟨hc, hb, hm⟩ := h
  exact ⟨hF.control_eq.trans hc, Nat.lt_of_not_le (hb.not_ge ∘ hF.spent_iff.mp), by rwa [hF.ip_eq, hF.capacity_eq]⟩

theorem StepMap.step {F : State → State} {s t : State} (hF : StepMap F s) (h : step s = .next t) :
    Machine.step (F s) = .next (F t) := by
  rcases step_inversion h with
    ⟨hc, rfl⟩ | ⟨hc, hb, rfl⟩ | ⟨hc, hb, hm, rfl⟩ | ⟨hs, hop, rfl⟩ | ⟨hs, hj, hlt, rfl⟩
  · exact step_of_not_running (hF.control_eq ▸ hc)
  · rw [hF.halt_eq, step_of_budget_le (hF.control_eq.trans hc) (hF.spent_iff.mpr hb)]
  · have hb' : (F s).count.toNat < (F s).budget.toNat := Nat.lt_of_not_le (hb.not_ge ∘ hF.spent_iff.mp)
    have hm' : (F s).capacity ≤ (F s).ip.toNat := by rwa [hF.ip_eq, hF.capacity_eq]
    rw [hF.halt_eq, step_of_capacity_le (hF.control_eq.trans hc) hm', if_pos hb']
  · rw [hF.completed_eq, step_completes (hF.executes hs)]
    rwa [hF.mem_eq, hF.ip_eq, hF.capacity_eq]
  · rw [hF.cut_off_eq, step_cut_off (hF.executes hs)]
    · rwa [hF.mem_eq, hF.ip_eq]
    · rwa [hF.ip_eq, hF.capacity_eq]

/-- The same Engine with other general-purpose registers and `FLAGS`. -/
def State.withRegisters (g : GprFile) (f : Word) (s : State) : State := { s with gpr := g, flags := f }

theorem State.withRegisters_stepMap (g : GprFile) (f : Word) (s : State) : StepMap (State.withRegisters g f) s where
  control_eq := rfl
  mem_eq := rfl
  capacity_eq := rfl
  ip_eq := rfl
  spent_iff := Iff.rfl
  halt_eq _ := rfl
  completed_eq := rfl
  cut_off_eq := rfl

/-- A map that every step respects along the loop, the loop respects. -/
theorem runLoop_map {F : State → State} {P : State → Prop} (hP : ∀ s t, P s → step s = .next t → P t)
    (hF : ∀ s, P s → StepMap F s) {n : Nat} {s t : State} (hs : P s) (h : runLoop n s = .next t) :
    runLoop n (F s) = .next (F t) := by
  induction n generalizing s with
  | zero =>
    cases h
    rfl
  | succ n ih =>
    obtain ⟨u, hu⟩ := step_total s
    rw [runLoop_succ n hu] at h
    rw [runLoop_succ n ((hF s hs).step hu)]
    exact ih (hP s u hs hu) h

/-- Settles O41: no iteration looks at a general-purpose register or at `FLAGS`. -/
theorem registersDoNotInfluenceRuns : Obligations.RegistersDoNotInfluenceRuns := by
  intro s t a m g f h
  have hloop : runLoop (m.toNat + 1) ((s.enterRun a m).withRegisters g f) = .next (t.withRegisters g f) :=
    runLoop_map (P := fun _ => True) (fun _ _ _ _ => trivial) (fun s _ => s.withRegisters_stepMap g f) trivial h
  exact hloop

/-- The same moment of a longer run, of budget `b`, that began `c` instructions earlier with the entries `earlier`. -/
def State.resumed (c : Word) (earlier : List TraceEntry) (b : Word) (s : State) : State :=
  { s with count := c + s.count, trace := earlier ++ s.trace, budget := b }

theorem State.resumed_stepMap {c b : Word} (earlier : List TraceEntry) {s : State}
    (h : b.toNat ≤ (c + s.count).toNat ↔ s.budget.toNat ≤ s.count.toNat) : StepMap (State.resumed c earlier b) s where
  control_eq := rfl
  mem_eq := rfl
  capacity_eq := rfl
  ip_eq := rfl
  spent_iff := h
  halt_eq _ := rfl
  completed_eq := by
    simp [State.resumed, State.afterCompleted, State.countUp, State.traceAppend, State.setIp, State.nextAddress,
      BitVec.add_assoc]
  cut_off_eq := by
    simp [State.resumed, State.afterCutOff, State.takeOutOfBounds, State.traceAppend, State.setIp]

/-- The second part of a longer run: its budget is spent exactly where the longer one's is. -/
theorem runLoop_resumed {c b : Word} (earlier : List TraceEntry) {n : Nat} {s t : State} (hs : s.InRun)
    (hb : c.toNat + s.budget.toNat = b.toNat) (h : runLoop n s = .next t) :
    runLoop n (s.resumed c earlier b) = .next (t.resumed c earlier b) := by
  refine runLoop_map (P := fun x => x.InRun ∧ x.budget = s.budget) (fun x y ⟨hx, hbx⟩ hy => ?_)
    (fun x ⟨hx, hbx⟩ => State.resumed_stepMap earlier ?_) ⟨hs, rfl⟩ h
  · exact ⟨step_inRun x y hx hy, (step_sameResources hy).budget_eq.trans hbx⟩
  · have hle := hx.count_le
    rw [hbx] at hle ⊢
    bv_omega

/-- The first part of a longer run: up to its budget stop the longer run goes the same way. -/
theorem runLoop_until_budget {n : Nat} {s t : State} (hs : s.InRun) (hrun : s.control = .running)
    (h : runLoop n s = .next t) (hstop : t.stop = .halted .budget) {b : Word} (hb : s.budget.toNat ≤ b.toNat) :
    ∃ (k : Nat) (u : State), u.InRun ∧ u.control = .running ∧ u.count = s.budget ∧ t = u.halt .budget ∧
      runLoop k (s.resumed 0 [] b) = .next (u.resumed 0 [] b) := by
  induction n generalizing s with
  | zero =>
    cases h
    cases (hs.stop_none hrun).symm.trans hstop
  | succ n ih =>
    obtain ⟨u, hu⟩ := step_total s
    rw [runLoop_succ n hu] at h
    rcases step_inversion hu with ⟨hc, -⟩ | ⟨-, hspent, rfl⟩ | ⟨-, -, -, rfl⟩ | ⟨hx, -, rfl⟩ | ⟨-, -, -, rfl⟩
    · exact absurd hrun hc
    · cases (runLoop_stopped n (s := s.halt .budget) nofun).symm.trans h
      exact ⟨0, s, hs, hrun, BitVec.eq_of_toNat_eq (Nat.le_antisymm hs.count_le hspent), rfl, rfl⟩
    · cases (runLoop_stopped n (s := s.halt .endOfMemory) nofun).symm.trans h
      cases hstop
    · have hmap : StepMap (State.resumed 0 [] b) s := by
        refine State.resumed_stepMap [] ?_
        rw [zero_add]
        have hleft := hx.budget_left
        omega
      obtain ⟨k, u, hin, hur, hcount, ht, hk⟩ := ih (step_inRun _ _ hs hu) hrun h hb
      exact ⟨k + 1, u, hin, hur, hcount, ht, (runLoop_succ k (hmap.step hu)).trans hk⟩
    · cases (runLoop_stopped n (s := s.afterCutOff) nofun).symm.trans h
      cases hstop

/-- Settles O42: the longer run goes the way of the first part up to its budget stop, and from there, in place of the
stop, the way of the second. -/
theorem resumedRunsCompose : Obligations.ResumedRunsCompose := by
  intro s t u a m n hno hfirst hstop hsecond
  have hsum : (m + n).toNat = m.toNat + n.toNat := by rw [BitVec.toNat_add, Nat.mod_eq_of_lt hno]
  obtain ⟨k, v, hv, hvrun, hcount, rfl, hk⟩ :=
    runLoop_until_budget (s.enterRun_inRun a m) rfl hfirst hstop (b := m + n) (by simp [hsum])
  have hmeet : v.resumed 0 [] (m + n) = ((v.halt .budget).enterRun v.ip n).resumed m v.trace (m + n) := by
    simp [State.resumed, State.enterRun, State.halt, hcount, hvrun, hv.stop_none hvrun]
  have hloop : runLoop (k + (n.toNat + 1)) (s.enterRun a (m + n)) = .next (u.resumed m v.trace (m + n)) := by
    rw [runLoop_add (s := s.enterRun a (m + n)) hk, hmeet]
    exact runLoop_resumed v.trace (State.enterRun_inRun _ _ _) hsum.symm hsecond
  have hstopped : u.control ≠ .running := State.run_stops hsecond
  exact State.run_eq_of_runLoop hloop hstopped

end Sys2Proof.Machine
end

section
/-! The trace is the path a run executed (spec/10_state.md section 5). -/

namespace Sys2Proof.Machine

/-- The entry that the instruction at `IP` appends. -/
def State.entryAtIp (s : State) : TraceEntry :=
  ⟨s.ip, s.mem.read s.ip.toNat, kindOfOpcode (s.mem.read s.ip.toNat)⟩

@[simp] theorem State.afterCompleted_trace (s : State) : s.afterCompleted.trace = s.trace ++ [s.entryAtIp] := rfl

theorem State.afterCutOff_trace {s : State} (hj : s.mem.read s.ip.toNat = Opcode.jmp) :
    s.afterCutOff.trace = s.trace ++ [s.entryAtIp] := by
  rw [State.entryAtIp, hj]
  rfl

/-- An entry that says of its address what memory says. -/
structure State.TrueEntry (s : State) (e : TraceEntry) : Prop where
  opcode_eq : s.mem.read e.address.toNat = e.opcode
  kind_eq : e.kind = kindOfOpcode e.opcode
  address_lt : e.address.toNat < s.capacity

theorem State.entryAtIp_true {s : State} (h : s.ip.toNat < s.capacity) : s.TrueEntry s.entryAtIp := ⟨rfl, rfl, h⟩

theorem State.SameResources.nextAddress_eq {s t : State} (hr : s.SameResources t) : t.nextAddress = s.nextAddress := by
  funext a
  rw [State.nextAddress, State.nextAddress, hr.mem_eq]

theorem State.TrueEntry.of_sameResources {s t : State} {e : TraceEntry} (h : s.TrueEntry e)
    (hr : s.SameResources t) : t.TrueEntry e where
  opcode_eq := hr.mem_eq ▸ h.opcode_eq
  kind_eq := h.kind_eq
  address_lt := hr.capacity_eq ▸ h.address_lt

/-- Where a path from `a` leads: past its last entry. -/
def State.pathEnd (s : State) (a : Word) (path : List TraceEntry) : Word :=
  path.getLast?.elim a fun e => s.nextAddress e.address

@[simp] theorem State.pathEnd_append_singleton (s : State) (a : Word) (path : List TraceEntry) (e : TraceEntry) :
    s.pathEnd a (path ++ [e]) = s.nextAddress e.address := by
  simp [State.pathEnd]

/-- A path of true entries from `a`, each where the one before left `IP`. -/
structure State.IsPath (s : State) (a : Word) (path : List TraceEntry) : Prop where
  entries : ∀ e ∈ path, s.TrueEntry e
  head : ∀ e, path.head? = some e → e.address = a
  chain : path.IsChain fun e f => f.address = s.nextAddress e.address

theorem State.isPath_nil (s : State) (a : Word) : s.IsPath a [] := ⟨nofun, nofun, .nil⟩

theorem State.IsPath.append {s : State} {a : Word} {path : List TraceEntry} (h : s.IsPath a path) {e : TraceEntry}
    (he : s.TrueEntry e) (hnext : e.address = s.pathEnd a path) : s.IsPath a (path ++ [e]) where
  entries f hf := by
    rcases List.mem_append.mp hf with hf | hf
    · exact h.entries f hf
    · exact List.mem_singleton.mp hf ▸ he
  head f hf := by
    cases path with
    | nil =>
      cases hf
      exact hnext
    | cons g path => exact h.head f hf
  chain := by
    refine List.isChain_append.mpr ⟨h.chain, .singleton e, fun f hf g hg => ?_⟩
    cases hg
    rw [hnext, State.pathEnd, hf]
    rfl

theorem State.IsPath.of_sameResources {s t : State} {a : Word} {path : List TraceEntry} (h : s.IsPath a path)
    (hr : s.SameResources t) : t.IsPath a path where
  entries e he := (h.entries e he).of_sameResources hr
  head := h.head
  chain := hr.nextAddress_eq ▸ h.chain

/-- A state whose trace is a path from `a` that has led to `IP`, or into a fault. -/
structure State.OnPath (a : Word) (s : State) : Prop where
  path : s.IsPath a s.trace
  ip_eq : s.control ≠ .faulted → s.ip = s.pathEnd a s.trace

/-- The path goes on with the instruction at `IP` of an executing state. -/
theorem State.OnPath.executes {a : Word} {s : State} (h : s.OnPath a) (hs : s.Executes) :
    s.IsPath a (s.trace ++ [s.entryAtIp]) := by
  have hnot : s.control ≠ .faulted := hs.isRunning ▸ nofun
  exact h.path.append (State.entryAtIp_true hs.ip_lt) (h.ip_eq hnot)

theorem step_onPath (a : Word) (s t : State) (h : s.OnPath a) (ht : step s = .next t) : t.OnPath a := by
  have hr := step_sameResources ht
  rcases step_inversion ht with ⟨-, rfl⟩ | ⟨hc, -, rfl⟩ | ⟨hc, -, -, rfl⟩ | ⟨hs, -, rfl⟩ | ⟨hs, hj, -, rfl⟩
  · exact h
  · exact ⟨h.path.of_sameResources hr, fun _ => h.ip_eq (hc ▸ nofun)⟩
  · exact ⟨h.path.of_sameResources hr, fun _ => h.ip_eq (hc ▸ nofun)⟩
  · exact ⟨(h.executes hs).of_sameResources hr,
      fun _ => (s.pathEnd_append_singleton a s.trace s.entryAtIp).symm⟩
  · exact ⟨State.afterCutOff_trace hj ▸ (h.executes hs).of_sameResources hr, (absurd rfl ·)⟩

theorem State.run_onPath {s t : State} {a m : Word} (h : s.run a m = .next t) : t.OnPath a :=
  State.run_invariant (step_onPath a) ⟨State.isPath_nil _ a, fun _ => rfl⟩ h

/-- Settles O44: at every moment of a run the trace is a path from the start that leads to `IP`. -/
theorem theTraceIsTheExecutedPath : Obligations.TheTraceIsTheExecutedPath := by
  intro s t a m h
  obtain ⟨⟨hentries, hhead, hchain⟩, hip⟩ := State.run_onPath h
  have hnext : t.nextAddress = s.nextAddress := (State.run_sameResources h).nextAddress_eq
  refine ⟨fun e he => ?_, hhead, ?_, fun hc e he => ?_⟩
  · obtain ⟨hop, hkind, hlt⟩ := hentries e he
    exact ⟨hop, hkind, hlt⟩
  · exact hnext ▸ hchain
  · rw [hip (hc ▸ nofun), State.pathEnd, he, Option.elim_some, hnext]

/-- Settles O48: an executing step appends a true entry and no step writes memory. -/
theorem everyStepKeepsTheTraceTrue : Obligations.EveryStepKeepsTheTraceTrue := by
  intro s t h ht
  have happend : ∀ e ∈ s.trace ++ [s.entryAtIp], s.mem.read e.address.toNat = e.opcode :=
    List.forall_mem_append.mpr ⟨h, List.forall_mem_singleton.mpr rfl⟩
  rcases step_inversion ht with ⟨-, rfl⟩ | ⟨-, -, rfl⟩ | ⟨-, -, -, rfl⟩ | ⟨-, -, rfl⟩ | ⟨-, hj, -, rfl⟩
  · exact h
  · exact h
  · exact h
  · exact happend
  · rwa [← State.afterCutOff_trace hj] at happend

end Sys2Proof.Machine
end

section
/-! The invariant of every Engine state: at construction, over a step, a run and every host command
(spec/10_state.md sections 1 to 6). -/

namespace Sys2Proof.Machine

theorem State.constructed_inv {capacity : Nat} (hpos : 1 ≤ capacity) (hle : capacity ≤ 2 ^ 64 - 1) :
    (State.constructed capacity).Inv where
  memory := ⟨Memory.wf_nil, nofun, hpos, hle⟩
  stop := rfl
  trace := ⟨rfl, nofun, nofun⟩
  count := Nat.zero_le _
  registers := ⟨rfl, GprFile.get_constructed capacity⟩

/-- Settles O45. -/
theorem invariantAtReset : Obligations.InvariantAtReset :=
  ⟨fun _ => State.constructed_inv, State.constructed_inv (by decide) (by decide)⟩

theorem State.MemoryOk.of_sameResources {s t : State} (h : s.MemoryOk) (hr : s.SameResources t) : t.MemoryOk where
  canonical := hr.mem_eq ▸ h.canonical
  exists_below := hr.mem_eq ▸ hr.capacity_eq ▸ h.exists_below
  capacity_pos := hr.capacity_eq ▸ h.capacity_pos
  capacity_le := hr.capacity_eq ▸ h.capacity_le

theorem State.RegistersZero.of_sameResources {s t : State} (h : s.RegistersZero) (hr : s.SameResources t) :
    t.RegistersZero where
  flags_zero := hr.flags_eq ▸ h.flags_zero
  gpr_zero := hr.gpr_eq ▸ h.gpr_zero

/-- The stop record while the run goes on. -/
theorem State.StopOk.of_running {s : State} (h : s.StopOk) (hrun : s.control = .running) : s.stop = .none := by
  unfold State.StopOk at h
  rwa [hrun] at h

theorem State.stopOk_of_running {s : State} (hrun : s.control = .running) (h : s.stop = .none) : s.StopOk := by
  unfold State.StopOk
  rwa [hrun]

theorem State.afterCutOff_stop (s : State) :
    s.afterCutOff.stop = .faulted ⟨s.ip + 1, 1, s.ip, s.ip + 1⟩ := rfl

/-- A step keeps the stop record's clause: at the budget's check the count has reached the budget, and a cut-off JMP
leaves `IP` at the end of memory. -/
theorem step_stopOk {s t : State} (h : s.Inv) (ht : step s = .next t) : t.StopOk := by
  rcases step_inversion ht with
    ⟨-, rfl⟩ | ⟨-, hb, rfl⟩ | ⟨-, -, hm, rfl⟩ | ⟨hs, -, rfl⟩ | ⟨hs, -, hlt, rfl⟩
  · exact h.stop
  · exact .inl ⟨rfl, BitVec.eq_of_toNat_eq (Nat.le_antisymm h.count hb)⟩
  · exact .inr ⟨rfl, hm⟩
  · exact State.stopOk_of_running hs.isRunning (h.stop.of_running hs.isRunning)
  · have hcap := h.memory.capacity_le
    have hm := hs.ip_lt
    refine ⟨?_, ?_⟩
    · change (s.ip + 1).toNat = s.capacity
      bv_omega
    · rw [State.afterCutOff_stop, State.afterCutOff_ip, BitVec.add_sub_cancel]

/-- An executing state's trace clause, with the entry of the instruction at `IP`. -/
theorem State.TraceOk.append {s t : State} (h : s.TraceOk) (hs : s.Executes) (hcap : t.capacity = s.capacity)
    (htrace : t.trace = s.trace ++ [s.entryAtIp])
    (hlen : t.count.toNat + (if t.control = .faulted then 1 else 0) = s.count.toNat + 1) : t.TraceOk := by
  refine ⟨?_, ?_, ?_⟩
  · rw [hlen, htrace, List.length_append, h.length_eq, hs.isRunning]
    rfl
  · rw [htrace]
    exact List.forall_mem_append.mpr ⟨h.kind_eq, List.forall_mem_singleton.mpr rfl⟩
  · rw [htrace, hcap]
    exact List.forall_mem_append.mpr ⟨h.address_lt, List.forall_mem_singleton.mpr hs.ip_lt⟩

theorem State.TraceOk.halt {s : State} (h : s.TraceOk) (hrun : s.control = .running) (r : HaltReason) :
    (s.halt r).TraceOk where
  length_eq := by
    have hlen := h.length_eq
    rwa [hrun] at hlen
  kind_eq := h.kind_eq
  address_lt := h.address_lt

theorem step_traceOk {s t : State} (h : s.TraceOk) (ht : step s = .next t) : t.TraceOk := by
  rcases step_inversion ht with ⟨-, rfl⟩ | ⟨hrun, -, rfl⟩ | ⟨hrun, -, -, rfl⟩ | ⟨hs, -, rfl⟩ | ⟨hs, hj, -, rfl⟩
  · exact h
  · exact h.halt hrun .budget
  · exact h.halt hrun .endOfMemory
  · refine h.append hs rfl s.afterCompleted_trace ?_
    have hrun : s.afterCompleted.control = .running := hs.isRunning
    rw [hrun]
    exact hs.count_succ_toNat
  · exact h.append hs rfl (State.afterCutOff_trace hj) rfl

theorem step_countOk {s t : State} (h : s.CountOk) (ht : step s = .next t) : t.CountOk := by
  rcases step_inversion ht with ⟨-, rfl⟩ | ⟨-, -, rfl⟩ | ⟨-, -, -, rfl⟩ | ⟨hs, -, rfl⟩ | ⟨-, -, -, rfl⟩
  · exact h
  · exact h
  · exact h
  · exact hs.count_succ_toNat.trans_le hs.budget_left
  · exact h

theorem step_inv (s t : State) (h : s.Inv) (ht : step s = .next t) : t.Inv where
  memory := h.memory.of_sameResources (step_sameResources ht)
  stop := step_stopOk h ht
  trace := step_traceOk h.trace ht
  count := step_countOk h.count ht
  registers := h.registers.of_sameResources (step_sameResources ht)

/-- Settles O46: clause by clause, over the cases of a step. -/
theorem everyStepKeepsTheInvariant : Obligations.EveryStepKeepsTheInvariant := step_inv

theorem State.Inv.enterRun {s : State} (h : s.Inv) (a m : Word) : (s.enterRun a m).Inv where
  memory := ⟨h.memory.canonical, h.memory.exists_below, h.memory.capacity_pos, h.memory.capacity_le⟩
  stop := rfl
  trace := ⟨rfl, nofun, nofun⟩
  count := Nat.zero_le _
  registers := ⟨h.registers.flags_zero, h.registers.gpr_zero⟩

theorem State.run_inv {s t : State} {a m : Word} (h : s.Inv) (ht : s.run a m = .next t) : t.Inv :=
  State.run_invariant step_inv (h.enterRun a m) ht

end Sys2Proof.Machine
end

section
/-! Bytes as numbers: the sign extension of a displacement, and the declared byte order (spec/00_scope.md section 5,
spec/20_memory.md section 5, spec/30_encoding.md section 4). -/

namespace Sys2Proof.Machine

theorem sint8_eq_toInt (b : Byte) : sint8 b = b.toInt := by
  rw [sint8, BitVec.toInt_eq_toNat_cond]
  split_ifs <;> omega

theorem toInt_sext64 (b : Byte) : (sext64 b).toInt = sint8 b := by
  rw [sint8_eq_toInt, sext64, BitVec.toInt_signExtend_of_le (by decide)]

/-- Settles O5: over the 256 bytes. -/
theorem signExtensionFormula : Obligations.SignExtensionFormula := by
  refine fun b => ⟨?_, toInt_sext64 b, BitVec.toNat_setWidth_of_le (by decide)⟩
  revert b
  decide

theorem jumpDisplacement_eq_some_iff {here target : Word} {d : Byte} :
    jumpDisplacement here target = some d ↔
      (-128 ≤ (target.toNat : Int) - (here.toNat + 2) ∧ (target.toNat : Int) - (here.toNat + 2) ≤ 127) ∧
        BitVec.ofInt 8 (target.toNat - (here.toNat + 2)) = d := by
  simp only [jumpDisplacement, Option.ite_none_right_eq_some, Option.some.injEq]

theorem exists_jumpDisplacement_iff (here target : Word) :
    (∃ d, jumpDisplacement here target = some d) ↔
      (here.toNat : Int) - 126 ≤ target.toNat ∧ (target.toNat : Int) ≤ here.toNat + 129 := by
  simp only [jumpDisplacement_eq_some_iff, exists_and_left, exists_eq', and_true]
  omega

/-- The displacement's sign extension is the distance it was made from. -/
theorem sext64_of_jumpDisplacement {here target : Word} {d : Byte} (h : jumpDisplacement here target = some d) :
    sext64 d = BitVec.ofInt 64 (target.toNat - (here.toNat + 2)) := by
  obtain ⟨⟨hlow, hhigh⟩, rfl⟩ := jumpDisplacement_eq_some_iff.mp h
  rw [sext64, BitVec.signExtend, BitVec.toInt_ofInt_eq_self (by decide) (by omega) (by omega)]

theorem add_sext64_of_jumpDisplacement {here target : Word} {d : Byte} (h : jumpDisplacement here target = some d) :
    here + 2 + sext64 d = target := by
  have hafter : here + 2 = BitVec.ofInt 64 (here.toNat + 2) := by
    rw [BitVec.ofInt_add, BitVec.ofInt_natCast, BitVec.ofNat_toNat, BitVec.setWidth_eq]
    rfl
  rw [sext64_of_jumpDisplacement h, hafter, ← BitVec.ofInt_add, add_sub_cancel, BitVec.ofInt_natCast,
    BitVec.ofNat_toNat, BitVec.setWidth_eq]

/-- Settles O6: the range is that of one signed byte, and the distance is added back. -/
theorem assembledJumpReachesItsTarget : Obligations.AssembledJumpReachesItsTarget :=
  fun s target => ⟨exists_jumpDisplacement_iff s.ip target, fun d hd hlt =>
    ⟨_, exec_jmp_of_lt d hlt, add_sext64_of_jumpDisplacement hd⟩⟩

/-- Settles O13: term by term, the first byte apart. -/
theorem littleEndianValueIsTheSum : Obligations.LittleEndianValueIsTheSum := by
  intro bs
  induction bs with
  | nil => simp [littleEndian]
  | cons b bs ih =>
    obtain ⟨hsum, hlt⟩ := ih
    have hb := b.isLt
    constructor
    · rw [littleEndian, hsum, List.length_cons, Finset.sum_range_succ', Finset.mul_sum, Nat.add_comm]
      refine congrArg₂ (· + ·) (Finset.sum_congr rfl fun k _ => ?_) ?_
      · rw [List.getD_cons_succ, pow_succ]
        ring
      · rw [List.getD_cons_zero, pow_zero, mul_one]
    · rw [littleEndian, List.length_cons, pow_succ]
      omega

end Sys2Proof.Machine
end

section
/-! Registers and memory as the host and the handlers reach them, at any state and after construction
(spec/10_state.md sections 1 and 8, spec/20_memory.md section 3). -/

namespace Sys2Proof.Machine

theorem State.readGpr_writeGpr (s : State) (i j : Fin 8) (v : Word) :
    (s.writeGpr i v).readGpr j = if j = i then v else s.readGpr j := by
  unfold State.readGpr
  rw [State.writeGpr_gpr]
  split_ifs with h
  · rw [h, GprFile.get_set_same]
  · exact GprFile.get_set_other _ (fun he => h (GprName.ofIndex_injective he).symm) v

/-- Settles O7. -/
theorem registerAccess : Obligations.RegisterAccess :=
  fun s i v => ⟨fun j => s.readGpr_writeGpr i j v, rfl, rfl, rfl, rfl⟩

theorem State.memRead_of_le {s : State} {addr : Word} {n : Nat} (h : addr.toNat + n ≤ s.capacity) :
    s.memRead addr n = .ok ((List.range n).map fun k => s.mem.read (addr.toNat + k)) :=
  if_pos ((s.inBounds_iff addr n).mpr h)

theorem State.memRead_of_lt {s : State} {addr : Word} {n : Nat} (h : s.capacity < addr.toNat + n) :
    s.memRead addr n = .error ⟨addr, n⟩ :=
  if_neg fun hin => Nat.not_le.mpr h ((s.inBounds_iff addr n).mp hin)

/-- Settles O8. -/
theorem readsAnswerExactlyInBounds : Obligations.ReadsAnswerExactlyInBounds := by
  refine fun s addr n => ⟨fun hin => ⟨_, State.memRead_of_le hin, ?_, fun k hk => ?_⟩, State.memRead_of_lt,
    s.memRead_one addr⟩
  · rw [List.length_map, List.length_range]
  · rw [List.getElem_map, List.getElem_range]

/-- Below every listed address memory reads as 0. -/
theorem Memory.read_of_lt {m : Memory} {a : Nat} (h : ∀ c ∈ m, a < c.1) : m.read a = 0 :=
  Memory.read_of_unlisted fun c hc => Nat.ne_of_gt (h c hc)

theorem Memory.wf_cons {k : Nat} {v : Byte} {m : Memory} :
    Memory.wf ((k, v) :: m) ↔ (∀ c ∈ m, k < c.1) ∧ v ≠ 0 ∧ m.wf := by
  rw [Memory.wf, Memory.wf, List.pairwise_cons, List.forall_mem_cons]
  tauto

/-- A canonical memory with a cell reads other than one that lists only later addresses. -/
theorem Memory.read_cons_ne {k : Nat} {v : Byte} {m n : Memory} (hv : v ≠ 0) (hn : ∀ c ∈ n, k < c.1) :
    Memory.read ((k, v) :: m) k ≠ n.read k := by
  rw [Memory.read_cons, if_pos rfl, Memory.read_of_lt hn]
  exact hv

/-- Of two memories that read alike, one lists its first address no later than the other. -/
theorem Memory.first_address_le {k j : Nat} {v w : Byte} {m n : Memory} (hv : v ≠ 0) (hn : ∀ c ∈ n, j < c.1)
    (h : ∀ a, Memory.read ((k, v) :: m) a = Memory.read ((j, w) :: n) a) : j ≤ k := by
  by_contra hlt
  have hkj : k < j := Nat.lt_of_not_le hlt
  exact absurd (h k) (Memory.read_cons_ne hv (List.forall_mem_cons.mpr ⟨hkj, fun c hc => hkj.trans (hn c hc)⟩))

/-- Settles O12: the first addresses agree, each being no later than the other, and so do their bytes and the rests. -/
theorem equalReadsMeanEqualMemory : Obligations.EqualReadsMeanEqualMemory := by
  intro m
  induction m with
  | nil =>
    intro n _ hn h
    match n with
    | [] => rfl
    | (k, v) :: n => exact absurd (h k).symm (Memory.read_cons_ne (Memory.wf_cons.mp hn).2.1 nofun)
  | cons c m ih =>
    intro n hm hn h
    obtain ⟨k, v⟩ := c
    obtain ⟨hkm, hv, hm'⟩ := Memory.wf_cons.mp hm
    match n with
    | [] => exact absurd (h k) (Memory.read_cons_ne hv nofun)
    | (j, w) :: n =>
      obtain ⟨hjn, hw, hn'⟩ := Memory.wf_cons.mp hn
      have hkj : k = j := Nat.le_antisymm (Memory.first_address_le hw hkm fun a => (h a).symm)
        (Memory.first_address_le hv hjn h)
      subst hkj
      have hvw : v = w := by simpa [Memory.read_cons] using h k
      have hrest : m = n := by
        refine ih n hm' hn' fun a => ?_
        by_cases ha : k = a
        · rw [← ha, Memory.read_of_lt hkm, Memory.read_of_lt hjn]
        · simpa [Memory.read_cons, ha] using h a
      rw [hvw, hrest]

/-- Settles O30. -/
theorem constructionLeavesEverythingZero : Obligations.ConstructionLeavesEverythingZero :=
  fun capacity => ⟨rfl, fun _ => State.constructed_memReadByte, rfl,
    fun r => GprFile.get_constructed capacity (GprName.ofIndex r), rfl, rfl, rfl, rfl, rfl, rfl⟩

end Sys2Proof.Machine
end

section
/-! What each host command answers, and what it leaves (spec/40_engine_cycle.md sections 3 and 4). -/

namespace Sys2Proof.Machine

theorem State.command_readByte (s : State) (a : Word) :
    s.command (.readByte a) =
      if a.toNat < s.capacity then .next (some s, .byte (s.mem.read a.toNat))
      else .next (some s, .outOfBounds ⟨a, 1⟩) := by
  rw [State.command]
  split_ifs with h
  · rw [State.memReadByte_of_lt h]
  · rw [State.memReadByte_of_le (Nat.le_of_not_lt h)]

theorem State.command_readBytes (s : State) (a : Word) (n : Nat) :
    s.command (.readBytes a n) =
      if a.toNat + n ≤ s.capacity then
        .next (some s, .bytes ((List.range n).map fun k => s.mem.read (a.toNat + k)))
      else .next (some s, .outOfBounds ⟨a, n⟩) := by
  rw [State.command]
  split_ifs with h
  · rw [State.memRead_of_le h]
  · rw [State.memRead_of_lt (Nat.lt_of_not_le h)]

theorem State.command_writeByte (s : State) (a : Word) (v : Byte) :
    s.command (.writeByte a v) =
      if a.toNat < s.capacity then .next (some { s with mem := s.mem.write a.toNat v }, .written)
      else .next (some s, .outOfBounds ⟨a, 1⟩) := by
  rw [State.command]
  split_ifs with h
  · rw [State.memWriteByte_of_lt v h]
  · rw [State.memWriteByte_of_le v (Nat.le_of_not_lt h)]

theorem State.command_loadImage (s : State) (bs : List Byte) (a : Word) :
    s.command (.loadImage bs a) =
      if a.toNat + bs.length ≤ s.capacity then
        .next (some { s with mem := s.mem.writeAll a.toNat bs }, .loaded bs.length)
      else .next (some s, .outOfBounds ⟨a, bs.length⟩) := by
  rw [State.command]
  split_ifs with h
  · rw [State.loadImage_of_le h]
  · rw [State.loadImage_of_lt (Nat.lt_of_not_le h)]

theorem State.command_run {s t : State} {a m : Word} (h : s.run a m = .next t) :
    s.command (.run a m) = .next (some t, .returned) := by
  rw [State.command, h]

/-- An answer comes from an Engine that is not `Running`, and is its command's. -/
theorem hostStep_some_inversion {s : State} {c : HostCommand} {o : World × HostReply}
    (h : hostStep (some s) c = .next o) : s.control ≠ .running ∧ s.command c = .next o := by
  by_cases hrun : s.control = .running
  · cases (hostStep_some_of_running hrun c).symm.trans h
  · exact ⟨hrun, (hostStep_some_of_not_running hrun c).symm.trans h⟩

/-- Everything that an answered command can leave of an Engine: itself, no Engine, the Engine with another memory, or
where a run stopped. -/
theorem State.command_inversion {s : State} {c : HostCommand} {w : World} {r : HostReply}
    (h : s.command c = .next (w, r)) :
    w = some s ∨ (w = none ∧ r = .destroyed) ∨
      (∃ bs a, a.toNat + bs.length ≤ s.capacity ∧ c = .loadImage bs a ∧
        w = some { s with mem := s.mem.writeAll a.toNat bs } ∧ r = .loaded bs.length) ∨
      (∃ a v, a.toNat < s.capacity ∧ c = .writeByte a v ∧
        w = some { s with mem := s.mem.write a.toNat v } ∧ r = .written) ∨
      ∃ a m t, c = .run a m ∧ s.run a m = .next t ∧ w = some t ∧ r = .returned := by
  cases c with
  | construct _ => cases h
  | observe =>
    cases h
    exact .inl rfl
  | destroy =>
    cases h
    exact .inr (.inl ⟨rfl, rfl⟩)
  | readByte a =>
    rw [State.command_readByte] at h
    split_ifs at h <;> (cases h; exact .inl rfl)
  | readBytes a n =>
    rw [State.command_readBytes] at h
    split_ifs at h <;> (cases h; exact .inl rfl)
  | writeByte a v =>
    rw [State.command_writeByte] at h
    split_ifs at h with hin <;> cases h
    · exact .inr (.inr (.inr (.inl ⟨a, v, hin, rfl, rfl, rfl⟩)))
    · exact .inl rfl
  | loadImage bs a =>
    rw [State.command_loadImage] at h
    split_ifs at h with hin <;> cases h
    · exact .inr (.inr (.inl ⟨bs, a, hin, rfl, rfl, rfl⟩))
    · exact .inl rfl
  | run a m =>
    obtain ⟨t, ht, -⟩ := s.run_total a m
    cases (State.command_run ht).symm.trans h
    exact .inr (.inr (.inr (.inr ⟨a, m, t, rfl, ht, rfl, rfl⟩)))

end Sys2Proof.Machine
end

section
/-! Construction and the host's commands keep the invariant (spec/40_engine_cycle.md section 4). -/

namespace Sys2Proof.Machine

theorem Config.maxCapacity_le : Config.maxCapacity ≤ 2 ^ 64 - 1 :=
  max_le (by decide) (Nat.le_pred_of_lt Config.ceiling.isLt)

/-- Settles O32. -/
theorem constructionGivesTheEngine : Obligations.ConstructionGivesTheEngine :=
  ⟨hostStep_none_construct, le_max_left 1 _, Config.maxCapacity_le⟩

/-- A host's write keeps the invariant where the memory it leaves is canonical and inside the capacity: no other clause
speaks of memory. -/
theorem State.Inv.with_mem {s : State} (h : s.Inv) {m : Memory} (hm : m.wf) (hbelow : ∀ c ∈ m, c.1 < s.capacity) :
    State.Inv { s with mem := m } where
  memory := ⟨hm, hbelow, h.memory.capacity_pos, h.memory.capacity_le⟩
  stop := h.stop
  trace := ⟨h.trace.length_eq, h.trace.kind_eq, h.trace.address_lt⟩
  count := h.count
  registers := ⟨h.registers.flags_zero, h.registers.gpr_zero⟩

theorem State.Inv.write {s : State} (h : s.Inv) {a : Nat} (ha : a < s.capacity) (v : Byte) :
    State.Inv { s with mem := s.mem.write a v } := by
  refine h.with_mem (Memory.wf_write h.memory.canonical a v) fun c hc => ?_
  rcases Memory.mem_write hc with hc | ⟨rfl, -⟩
  · exact h.memory.exists_below c hc
  · exact ha

theorem State.Inv.writeAll {s : State} (h : s.Inv) {a : Nat} {bs : List Byte} (ha : a + bs.length ≤ s.capacity) :
    State.Inv { s with mem := s.mem.writeAll a bs } := by
  refine h.with_mem (Memory.wf_writeAll h.memory.canonical a bs) fun c hc => ?_
  rcases Memory.mem_writeAll hc with hc | ⟨-, hlt⟩
  · exact h.memory.exists_below c hc
  · exact Nat.lt_of_lt_of_le hlt ha

/-- Where there is no Engine only a construction answers, with an Engine of an accepted capacity or with none. -/
theorem hostStep_none_inv {v : World} {c : HostCommand} {r : HostReply} (h : hostStep none c = .next (v, r))
    {t : State} (ht : v = some t) : t.Inv := by
  subst ht
  by_cases hc : ∃ capacity, c = .construct capacity
  · obtain ⟨capacity, rfl⟩ := hc
    rw [hostStep_none_construct] at h
    split_ifs at h with hbad
    · cases h
    · cases h
      obtain ⟨hpos, hle⟩ := not_or.mp hbad
      exact State.constructed_inv (Nat.one_le_iff_ne_zero.mpr hpos) ((Nat.le_of_not_lt hle).trans Config.maxCapacity_le)
  · cases (hostStep_none_of_ne_construct (not_exists.mp hc)).symm.trans h

theorem State.command_inv {s t : State} {c : HostCommand} {r : HostReply} (hs : s.Inv)
    (h : s.command c = .next (some t, r)) : t.Inv := by
  rcases State.command_inversion h with
    hw | ⟨hw, -⟩ | ⟨bs, a, hin, -, hw, -⟩ | ⟨a, v, hin, -, hw, -⟩ | ⟨a, m, u, -, hu, hw, -⟩
  · cases hw
    exact hs
  · cases hw
  · cases hw
    exact hs.writeAll hin
  · cases hw
    exact hs.write hin v
  · cases hw
    exact State.run_inv hs hu

/-- Settles O47: construction establishes the invariant, and the Engine a command leaves is the one before it, that one
with bytes written inside its capacity, or where a run of it stopped. -/
theorem everyHostCommandKeepsTheInvariant : Obligations.EveryHostCommandKeepsTheInvariant := by
  intro w v c r hw h t ht
  cases w with
  | none => exact hostStep_none_inv h ht
  | some s =>
    subst ht
    obtain ⟨-, hcmd⟩ := hostStep_some_inversion h
    exact State.command_inv (hw s rfl) hcmd

end Sys2Proof.Machine
end

section
/-! Which host commands are answered, what they read and what they leave unchanged (spec/40_engine_cycle.md sections 3
and 4, spec/20_memory.md sections 3 and 4). -/

namespace Sys2Proof.Machine

/-- An Engine that is not `Running` answers every command but a construction. -/
theorem State.command_total (s : State) {c : HostCommand} (h : ∀ capacity, c ≠ .construct capacity) :
    ∃ o, s.command c = .next o := by
  cases c with
  | construct capacity => exact absurd rfl (h capacity)
  | observe => exact ⟨_, rfl⟩
  | destroy => exact ⟨_, rfl⟩
  | readByte a =>
    rw [State.command_readByte]
    split_ifs <;> exact ⟨_, rfl⟩
  | readBytes a n =>
    rw [State.command_readBytes]
    split_ifs <;> exact ⟨_, rfl⟩
  | writeByte a v =>
    rw [State.command_writeByte]
    split_ifs <;> exact ⟨_, rfl⟩
  | loadImage bs a =>
    rw [State.command_loadImage]
    split_ifs <;> exact ⟨_, rfl⟩
  | run a m =>
    obtain ⟨t, ht, -⟩ := s.run_total a m
    exact ⟨_, State.command_run ht⟩

/-- Settles O34: without an Engine by the commands, with one by its control state first; `run` is answered because every
run returns. -/
theorem commandsAcceptedOutsideRunning : Obligations.CommandsAcceptedOutsideRunning := by
  refine ⟨fun c => ⟨fun ⟨r, hr⟩ => ?_, ?_⟩, fun s c => ⟨fun ⟨r, hr⟩ => ?_, fun ⟨hrun, hc⟩ => ?_⟩⟩
  · by_contra hc
    cases (hostStep_none_of_ne_construct (not_exists.mp hc)).symm.trans hr
  · rintro ⟨capacity, rfl⟩
    rw [hostStep_none_construct]
    split_ifs <;> exact ⟨_, rfl⟩
  · obtain ⟨hrun, hr⟩ := hostStep_some_inversion hr
    refine ⟨hrun, ?_⟩
    rintro capacity rfl
    cases hr
  · rw [hostStep_some_of_not_running hrun]
    exact s.command_total hc

/-- A command that only reads. -/
def HostCommand.Reads (c : HostCommand) : Prop :=
  (∃ a, c = .readByte a) ∨ (∃ a n, c = .readBytes a n) ∨ c = .observe

theorem State.command_reads {s : State} {c : HostCommand} (hc : c.Reads) {w : World} {r : HostReply}
    (h : s.command c = .next (w, r)) : w = some s := by
  rcases hc with ⟨a, rfl⟩ | ⟨a, n, rfl⟩ | rfl
  · rw [State.command_readByte] at h
    split_ifs at h <;> (cases h; rfl)
  · rw [State.command_readBytes] at h
    split_ifs at h <;> (cases h; rfl)
  · cases h
    rfl

/-- Settles O35: a reading command leaves the Engine, so the same command meets the same state; a write and a load leave
the bytes outside those they name. -/
theorem memoryAccessHasNoSideEffect : Obligations.MemoryAccessHasNoSideEffect := by
  refine ⟨fun s c w r hc h => ?_, fun s a v w r h => ?_, fun s bs a w r h => ?_⟩
  · obtain ⟨-, hcmd⟩ := hostStep_some_inversion h
    have hw : w = some s := State.command_reads hc hcmd
    exact ⟨hw, hw ▸ h⟩
  · obtain ⟨-, hcmd⟩ := hostStep_some_inversion h
    rw [State.command_writeByte] at hcmd
    split_ifs at hcmd <;> cases hcmd
    · exact ⟨_, rfl, rfl, fun b hb => Memory.read_write_other v hb⟩
    · exact ⟨s, rfl, rfl, fun _ _ => rfl⟩
  · obtain ⟨-, hcmd⟩ := hostStep_some_inversion h
    rw [State.command_loadImage] at hcmd
    split_ifs at hcmd <;> cases hcmd
    · exact ⟨_, rfl, rfl, fun b hb => Memory.read_writeAll_outside bs hb⟩
    · exact ⟨s, rfl, rfl, fun _ _ => rfl⟩

/-- An access that answers by its bound answers the error exactly where the bound fails. -/
theorem answer_eq_outOfBounds_iff {p : Prop} [Decidable p] {v w : World} {r : HostReply} {e : OutOfBounds}
    (hr : r ≠ .outOfBounds e) :
    (if p then .next (v, r) else .next (w, .outOfBounds e) : Host.Outcome (World × HostReply) Fault Refusal) =
      .next (w, .outOfBounds e) ↔ ¬ p := by
  split_ifs with hp
  · simp [hp, hr]
  · simp [hp]

/-- The Engine that answers `OutOfBounds` is the one the command met. -/
theorem State.command_outOfBounds {s : State} {c : HostCommand} {w : World} {e : OutOfBounds}
    (h : s.command c = .next (w, .outOfBounds e)) : w = some s := by
  rcases State.command_inversion h with
    hw | ⟨-, hr⟩ | ⟨_, _, -, -, -, hr⟩ | ⟨_, _, -, -, -, hr⟩ | ⟨_, _, _, -, -, -, hr⟩
  · exact hw
  · cases hr
  · cases hr
  · cases hr
  · cases hr

/-- Settles O36: each access answers by its bound, and no other answer than a failed access's is `OutOfBounds`. -/
theorem failedHostAccessChangesNothing : Obligations.FailedHostAccessChangesNothing := by
  refine fun s hrun => ⟨fun a => ?_, fun a n => ?_, fun a v => ?_, fun bs a => ?_,
    fun c w e h => ?_⟩
  · rw [hostStep_some_of_not_running hrun, State.command_readByte]
    exact Iff.trans (answer_eq_outOfBounds_iff (by simp)) Nat.not_lt
  · rw [hostStep_some_of_not_running hrun, State.command_readBytes]
    exact Iff.trans (answer_eq_outOfBounds_iff (by simp)) Nat.not_le
  · rw [hostStep_some_of_not_running hrun, State.command_writeByte]
    exact Iff.trans (answer_eq_outOfBounds_iff (by simp)) Nat.not_lt
  · rw [hostStep_some_of_not_running hrun, State.command_loadImage]
    exact Iff.trans (answer_eq_outOfBounds_iff (by simp)) Nat.not_le
  · rw [hostStep_some_of_not_running hrun] at h
    exact State.command_outOfBounds h

/-- Settles O37. -/
theorem observationIsTheWholeOutput : Obligations.ObservationIsTheWholeOutput := by
  refine fun s hrun => ⟨hostStep_some_of_not_running hrun .observe, fun a ha => ?_⟩
  rw [hostStep_some_of_not_running hrun, State.command_readByte, if_pos ha]

end Sys2Proof.Machine
end
